-- ==== Sys2Proof/Word.lean ====
section
/-! DEFINITION. The engine's values: an `XLEN`-bit pattern, held as the integer it denotes; a register index; a packed word. -/

namespace Sys2Proof

/-- What a general register, a memory cell or a cache line holds (00_scope.md R9). The spec's value is an
`XLEN`-bit pattern `v`; the model holds the integer `sint(v)` that the pattern denotes in two's complement.
`XLEN` is an OPEN parameter, so it is no part of this type: `Machine.fits` says which integers are patterns, and
every step keeps every stored value among them. DESIGN CHOICE (log entry 3), safe. -/
abbrev Word := Int

/-- A register index `0 <= i < 8` (10_state.md R20): an index outside that range cannot be written down, as none
can reach the register file. -/
abbrev Reg := Fin 8

/-- A packed instruction word (30_encoding.md R88): one 32-bit word, never split into bytes (20_memory.md R65). -/
abbrev PackedWord := BitVec 32

end Sys2Proof
end

