-- ==== Sys2Proof/Config.lean ====
section
/-! DEFINITION. What is fixed for the life of an engine: the spec's stated constants and its OPEN parameters (00_scope.md R7). -/

namespace Sys2Proof

/-- `NREGS`, the number of general registers (00_scope.md R7). -/
def nRegs : Nat := 8

/-- `LINK`, the index of the link register that JAL writes (00_scope.md R7, 10_state.md R22). -/
def linkReg : Reg := 7

/-- `MEM_CELLS`, the number of MemoryBus cells (00_scope.md R7, 10_state.md R32). -/
def memCells : Nat := 256

/-- `L_MAX`, the largest program length the instruction store accepts (00_scope.md R7). -/
def lMax : Nat := 32767

/-- The OPEN parameters of 00_scope.md R7. Every value of this type is a legal engine: `XLEN >= 16` is held as
its excess over 16, so that no narrower machine can be written down. A state carries its engine's parameters
(`State.cfg`), no step writes them, and a statement about every state is a statement about every legal engine.
DESIGN CHOICE (log entry 1), safe. -/
structure Config where
  /-- `XLEN - 16`. -/
  xlenExcess : Nat
  /-- `CACHE_ENABLED_AT_RESET`: the cache enabled flag after power-on reset. -/
  cacheEnabledAtReset : Bool
  /-- `RUN_RESETS_MEMORY`: whether a run start zeroes the MemoryBus. -/
  runResetsMemory : Bool
  /-- `RUN_RESETS_CACHE`: whether a run start clears every cache entry. -/
  runResetsCache : Bool
deriving DecidableEq, Repr

/-- `XLEN`, the width of a register and of a memory cell. -/
def Config.xlen (c : Config) : Nat := 16 + c.xlenExcess

/-- Open value (00_scope.md R7, 92_eei_decisions.md D2): `XLEN - 16` of the engine that `State.reset` describes.
No proof can see it (log entry 2). -/
opaque Config.openXlenExcess : Nat

/-- Open value (00_scope.md R7, 92_eei_decisions.md D5): `CACHE_ENABLED_AT_RESET` of the engine of `State.reset`. -/
opaque Config.openCacheEnabledAtReset : Bool

/-- Open value (00_scope.md R7, 92_eei_decisions.md D6): `RUN_RESETS_MEMORY` of the engine of `State.reset`. -/
opaque Config.openRunResetsMemory : Bool

/-- Open value (00_scope.md R7, 92_eei_decisions.md D6): `RUN_RESETS_CACHE` of the engine of `State.reset`. -/
opaque Config.openRunResetsCache : Bool

/-- The parameters of the engine that `State.reset` describes: all four open (log entry 2). -/
def Config.unknown : Config where
  xlenExcess := Config.openXlenExcess
  cacheEnabledAtReset := Config.openCacheEnabledAtReset
  runResetsMemory := Config.openRunResetsMemory
  runResetsCache := Config.openRunResetsCache

end Sys2Proof
end

