-- ==== Sys2Proof/Syntax.lean ====
section
/-! DEFINITION. The opcode set, the decoded instruction and the raw record (30_encoding.md R81, R82, R85, R88). -/

namespace Sys2Proof

/-- The opcode set (30_encoding.md R81), in the order the source lists it. -/
inductive Op where
  | add | addi | sub | slt | bne | j | jal | lw | sw | cache | halt
deriving DecidableEq, Repr

/-- The seven operand formats (30_encoding.md R83). -/
inductive Format where
  /-- `rd, rs, rt`. -/
  | r
  /-- `rt, rs, imm`. -/
  | i
  /-- `rs, rt, offset`. -/
  | b
  /-- `rt, offset(rs)`. -/
  | m
  /-- `target`. -/
  | j
  /-- `code`. -/
  | c
  /-- No operand. -/
  | n
deriving DecidableEq, Repr

/-- The decoded instruction (30_encoding.md R82), its operands in assembler order. A literal is an integer;
`Instr.wellFormed` bounds it (R84). -/
inductive Instr where
  /-- `ADD Rd, Rs, Rt`. -/
  | add (rd rs rt : Reg)
  /-- `ADDI Rt, Rs, imm`. -/
  | addi (rt rs : Reg) (imm : Int)
  /-- `SUB Rd, Rs, Rt`. -/
  | sub (rd rs rt : Reg)
  /-- `SLT Rd, Rs, Rt`. -/
  | slt (rd rs rt : Reg)
  /-- `BNE Rs, Rt, offset`. -/
  | bne (rs rt : Reg) (offset : Int)
  /-- `J target`. -/
  | j (target : Int)
  /-- `JAL target`. -/
  | jal (target : Int)
  /-- `LW Rt, offset(Rs)`; `rs` is the base. -/
  | lw (rt : Reg) (offset : Int) (rs : Reg)
  /-- `SW Rt, offset(Rs)`; `rs` is the base. -/
  | sw (rt : Reg) (offset : Int) (rs : Reg)
  /-- `CACHE code`. -/
  | cache (code : Int)
  /-- `HALT`. -/
  | halt
deriving DecidableEq, Repr

/-- A raw instruction record (10_state.md R33): a line of assembler text (30_encoding.md R85) or a packed word (R88). -/
inductive Record where
  | text (line : String)
  | packed (w : PackedWord)
deriving DecidableEq, Repr

/-- The opcode of a decoded instruction. -/
def Instr.op : Instr → Op
  | .add _ _ _ => .add
  | .addi _ _ _ => .addi
  | .sub _ _ _ => .sub
  | .slt _ _ _ => .slt
  | .bne _ _ _ => .bne
  | .j _ => .j
  | .jal _ => .jal
  | .lw _ _ _ => .lw
  | .sw _ _ _ => .sw
  | .cache _ => .cache
  | .halt => .halt

end Sys2Proof
end

