-- ==== Sys2Proof/WellFormed.lean ====
section
/-! DEFINITION. Which terms of `Instr` are decoded instructions: every literal lies in 16 signed bits (30_encoding.md R82, R84). -/

namespace Sys2Proof

/-- A literal operand lies in `[-32768, 32767]` (30_encoding.md R84). -/
def litOk (n : Int) : Bool := decide (-32768 ≤ n ∧ n ≤ 32767)

/-- The check of a decoded instruction. Register operands are bounded by their type. -/
def Instr.wellFormed : Instr → Bool
  | .add _ _ _ => true
  | .addi _ _ imm => litOk imm
  | .sub _ _ _ => true
  | .slt _ _ _ => true
  | .bne _ _ offset => litOk offset
  | .j target => litOk target
  | .jal target => litOk target
  | .lw _ offset _ => litOk offset
  | .sw _ offset _ => litOk offset
  | .cache code => litOk code
  | .halt => true

end Sys2Proof
end

