-- ==== Sys2Proof/Decode.lean ====
section
/-! DEFINITION. The decoder of packed words and of assembler lines, total and rejecting by name, and after it the encoder
and the assembler spelling (30_encoding.md). -/

namespace Sys2Proof

/-- Why a record is no instruction (30_encoding.md R92, R93): the two decode faults. -/
inductive DecodeError where
  /-- The mnemonic, or the tag, is none of the eleven. -/
  | unknownInstruction
  /-- The mnemonic or tag is known and the operands do not fit it, or the record is empty. -/
  | malformedInstruction
deriving DecidableEq, Repr

/-! ### The opcode tables -/

/-- Every opcode, in tag order (30_encoding.md R81). -/
def Op.all : List Op := [.add, .addi, .sub, .slt, .bne, .j, .jal, .lw, .sw, .cache, .halt]

/-- The 4-bit tag of an opcode (30_encoding.md R81). -/
def Op.tag : Op → BitVec 4
  | .add => 0x0
  | .addi => 0x1
  | .sub => 0x2
  | .slt => 0x3
  | .bne => 0x4
  | .j => 0x5
  | .jal => 0x6
  | .lw => 0x7
  | .sw => 0x8
  | .cache => 0x9
  | .halt => 0xA

/-- The mnemonic of an opcode: upper case, exact (30_encoding.md R85). -/
def Op.mnemonic : Op → String
  | .add => "ADD"
  | .addi => "ADDI"
  | .sub => "SUB"
  | .slt => "SLT"
  | .bne => "BNE"
  | .j => "J"
  | .jal => "JAL"
  | .lw => "LW"
  | .sw => "SW"
  | .cache => "CACHE"
  | .halt => "HALT"

/-- The operand format of an opcode (30_encoding.md R83). -/
def Op.format : Op → Format
  | .add => .r
  | .addi => .i
  | .sub => .r
  | .slt => .r
  | .bne => .b
  | .j => .j
  | .jal => .j
  | .lw => .m
  | .sw => .m
  | .cache => .c
  | .halt => .n

/-- The reserved mask of a format: the bits that must be zero (30_encoding.md R89). -/
def Format.reservedMask : Format → PackedWord
  | .r => 0x0007FFFF
  | .i => 0x003F0000
  | .b => 0x003F0000
  | .m => 0x003F0000
  | .j => 0x0FFF0000
  | .c => 0x0FFF0000
  | .n => 0x0FFFFFFF

/-- One row of the opcode map (30_encoding.md R98). -/
structure OpcodeRow where
  op : Op
  pattern : PackedWord
  mask : PackedWord
deriving DecidableEq, Repr

/-- The opcode map, written out from 30_encoding.md R98. -/
def opcodeTable : List OpcodeRow :=
  [ ⟨.add,   0x00000000, 0xF007FFFF⟩,
    ⟨.addi,  0x10000000, 0xF03F0000⟩,
    ⟨.sub,   0x20000000, 0xF007FFFF⟩,
    ⟨.slt,   0x30000000, 0xF007FFFF⟩,
    ⟨.bne,   0x40000000, 0xF03F0000⟩,
    ⟨.j,     0x50000000, 0xFFFF0000⟩,
    ⟨.jal,   0x60000000, 0xFFFF0000⟩,
    ⟨.lw,    0x70000000, 0xF03F0000⟩,
    ⟨.sw,    0x80000000, 0xF03F0000⟩,
    ⟨.cache, 0x90000000, 0xFFFF0000⟩,
    ⟨.halt,  0xA0000000, 0xFFFFFFFF⟩ ]

/-! ### Packed words -/

/-- The tag field `w[31:28]` (30_encoding.md R88). -/
def tagField (w : PackedWord) : BitVec 4 := w.extractLsb' 28 4

/-- Field `A`, `w[27:25]`, read unsigned (30_encoding.md R88, R90). -/
def fieldA (w : PackedWord) : Reg := (w.extractLsb' 25 3).toFin

/-- Field `B`, `w[24:22]` (30_encoding.md R88, R90). -/
def fieldB (w : PackedWord) : Reg := (w.extractLsb' 22 3).toFin

/-- Field `Cf`, `w[21:19]` (30_encoding.md R88, R90). -/
def fieldC (w : PackedWord) : Reg := (w.extractLsb' 19 3).toFin

/-- The literal `sint16(w[15:0])` (30_encoding.md R90). -/
def litField (w : PackedWord) : Int := (w.extractLsb' 0 16).toInt

/-- The opcode of a tag, or none for tags 11 to 15 (30_encoding.md R81, R99). -/
def Op.ofTag (t : BitVec 4) : Option Op := Op.all.find? (fun op => op.tag == t)

/-- The instruction of an opcode from its word's fields (30_encoding.md R89). -/
def Op.instrOfFields (op : Op) (a b c : Reg) (lit : Int) : Instr :=
  match op with
  | .add => .add a b c
  | .addi => .addi a b lit
  | .sub => .sub a b c
  | .slt => .slt a b c
  | .bne => .bne a b lit
  | .j => .j lit
  | .jal => .jal lit
  | .lw => .lw a lit b
  | .sw => .sw a lit b
  | .cache => .cache lit
  | .halt => .halt

/-- Decoding a packed word, in the order of 30_encoding.md R93: the tag first, then the reserved bits. -/
def decodeWord (w : PackedWord) : Except DecodeError Instr :=
  match Op.ofTag (tagField w) with
  | none => .error .unknownInstruction
  | some op =>
    if w &&& op.format.reservedMask = 0 then
      .ok (op.instrOfFields (fieldA w) (fieldB w) (fieldC w) (litField w))
    else .error .malformedInstruction

/-! ### Assembler lines -/

/-- `ws` is spaces and tabs (30_encoding.md R85). DEDUCED (log entry 9): no other character is white space. -/
def isWs (c : Char) : Bool := c == ' ' || c == '\t'

/-- `digit` (30_encoding.md R85). -/
def isDecDigit (c : Char) : Bool := decide (48 ≤ c.toNat ∧ c.toNat ≤ 57)

/-- The number a run of decimal digits denotes, most significant first. -/
def digitsValue (ds : List Char) : Nat := ds.foldl (fun n c => 10 * n + (c.toNat - 48)) 0

/-- `digit { digit }` (30_encoding.md R85). -/
def parseDigits (ds : List Char) : Option Nat :=
  if ds ≠ [] ∧ ds.all isDecDigit then some (digitsValue ds) else none

/-- `reg ::= "R" digit { digit }` with its index in `[0, 8)` (30_encoding.md R85, R86, R95). -/
def parseReg : List Char → Option Reg
  | 'R' :: ds =>
    match parseDigits ds with
    | some n => if h : n < 8 then some ⟨n, h⟩ else none
    | none => none
  | _ => none

/-- `int ::= [ "+" | "-" ] digit { digit }`, without the range check (30_encoding.md R85, R87). -/
def parseSigned : List Char → Option Int
  | '+' :: ds => (parseDigits ds).map (fun n => (n : Int))
  | '-' :: ds => (parseDigits ds).map (fun n => -(n : Int))
  | ds => (parseDigits ds).map (fun n => (n : Int))

/-- An integer token that lies in `[-32768, 32767]` (30_encoding.md R87, R96). -/
def parseLit (s : List Char) : Option Int :=
  match parseSigned s with
  | some n => if litOk n then some n else none
  | none => none

/-- The `reg ")"` that closes a memory operand (30_encoding.md R85). -/
def parseBase (s : List Char) : Option Reg :=
  if s.getLast? = some ')' then parseReg s.dropLast else none

/-- `mem ::= int "(" reg ")"`: the offset and the base (30_encoding.md R85, R87). -/
def parseMem (s : List Char) : Option (Int × Reg) :=
  match s.dropWhile (· != '(') with
  | '(' :: base =>
    match parseLit (s.takeWhile (· != '(')), parseBase base with
    | some offset, some rs => some (offset, rs)
    | _, _ => none
  | _ => none

/-- White space taken off both ends. -/
def trimWs (s : List Char) : List Char := ((s.dropWhile isWs).reverse.dropWhile isWs).reverse

/-- A character put in front of the first piece. -/
def consFirst (c : Char) : List (List Char) → List (List Char)
  | p :: ps => (c :: p) :: ps
  | [] => [[c]]

/-- The pieces between commas. -/
def splitCommas : List Char → List (List Char)
  | [] => [[]]
  | c :: s => if c = ',' then [] :: splitCommas s else consFirst c (splitCommas s)

/-- The operands of a line after its mnemonic: what stands between the commas, without white space around it
(30_encoding.md R85). A line with nothing but white space there has none. -/
def operandsOf (rest : List Char) : List (List Char) :=
  if rest.all isWs then [] else (splitCommas rest).map trimWs

/-- The operand list of 30_encoding.md R85 for each mnemonic. -/
def parseOperands (op : Op) (operands : List (List Char)) : Option Instr :=
  match op.format, operands with
  | .r, [a, b, c] =>
    match parseReg a, parseReg b, parseReg c with
    | some rd, some rs, some rt => some (op.instrOfFields rd rs rt 0)
    | _, _, _ => none
  | .i, [a, b, c] | .b, [a, b, c] =>
    match parseReg a, parseReg b, parseLit c with
    | some ra, some rb, some lit => some (op.instrOfFields ra rb 0 lit)
    | _, _, _ => none
  | .m, [a, b] =>
    match parseReg a, parseMem b with
    | some rt, some (offset, rs) => some (op.instrOfFields rt rs 0 offset)
    | _, _ => none
  | .j, [a] | .c, [a] =>
    match parseLit a with
    | some lit => some (op.instrOfFields 0 0 0 lit)
    | none => none
  | .n, [] => some (op.instrOfFields 0 0 0 0)
  | _, _ => none

/-- Characters a mnemonic can hold: the ones that are neither white space nor a comma (30_encoding.md R92). -/
def inMnemonic (c : Char) : Bool := !(isWs c) && c != ','

/-- The opcode of a mnemonic, compared exactly (30_encoding.md R85, R92). -/
def Op.ofMnemonic (m : List Char) : Option Op := Op.all.find? (fun op => op.mnemonic.toList == m)

/-- Decoding an assembler line, in the order of 30_encoding.md R92: empty, then the mnemonic, then the operands.
The mnemonic is the first maximal run of characters that are neither white space nor a comma; a comma before it
belongs to no operand list, so such a line is malformed. DEDUCED (log entry 10). -/
def decodeText (s : List Char) : Except DecodeError Instr :=
  if s.all isWs then .error .malformedInstruction
  else
    let before := s.takeWhile (fun c => !(inMnemonic c))
    let body := s.dropWhile (fun c => !(inMnemonic c))
    match Op.ofMnemonic (body.takeWhile inMnemonic) with
    | none => .error .unknownInstruction
    | some op =>
      if before.all isWs then
        match parseOperands op (operandsOf (body.dropWhile inMnemonic)) with
        | some i => .ok i
        | none => .error .malformedInstruction
      else .error .malformedInstruction

/-- `decode(I[p])` (00_scope.md R14): a record of either form. It reads the record and nothing else (30_encoding.md R94). -/
def decodeRecord : Record → Except DecodeError Instr
  | .text line => decodeText line.toList
  | .packed w => decodeWord w

/-- The decoder on an opcode-table word: the low `nbits` bits of `w`, the bits above them zero. Every row of the
table is one 32-bit word (30_encoding.md R100), which is never split into bytes (20_memory.md R65). -/
def packedOfTableWord (nbits w : Nat) : PackedWord := BitVec.ofNat 32 (w % 2 ^ nbits)

/-- What the decoder reads from a word of `spec/opcode_table.json`. -/
def decodeTableWord (nbits w : Nat) : Option Instr := (decodeWord (packedOfTableWord nbits w)).toOption

/-! ### The encoder and the assembler spelling -/

/-- A register operand as a 3-bit field (30_encoding.md R89). -/
def regBits (r : Reg) : BitVec 3 := BitVec.ofNat 3 r.val

/-- The low 16 bits of a literal's two's-complement form (30_encoding.md R89). -/
def litBits (n : Int) : BitVec 16 := BitVec.ofInt 16 n

/-- `{op[3:0], A[2:0], B[2:0], Cf[2:0], 000, lit16[15:0]}` (30_encoding.md R89). -/
def packFields (op : Op) (a b c : BitVec 3) (lit : BitVec 16) : PackedWord :=
  op.tag ++ a ++ b ++ c ++ 0#3 ++ lit

/-- The packed word of an instruction, its unused fields zero (30_encoding.md R89). -/
def encode : Instr → PackedWord
  | .add rd rs rt => packFields .add (regBits rd) (regBits rs) (regBits rt) 0
  | .addi rt rs imm => packFields .addi (regBits rt) (regBits rs) 0 (litBits imm)
  | .sub rd rs rt => packFields .sub (regBits rd) (regBits rs) (regBits rt) 0
  | .slt rd rs rt => packFields .slt (regBits rd) (regBits rs) (regBits rt) 0
  | .bne rs rt offset => packFields .bne (regBits rs) (regBits rt) 0 (litBits offset)
  | .j target => packFields .j 0 0 0 (litBits target)
  | .jal target => packFields .jal 0 0 0 (litBits target)
  | .lw rt offset rs => packFields .lw (regBits rt) (regBits rs) 0 (litBits offset)
  | .sw rt offset rs => packFields .sw (regBits rt) (regBits rs) 0 (litBits offset)
  | .cache code => packFields .cache 0 0 0 (litBits code)
  | .halt => packFields .halt 0 0 0 0

/-- The decimal digit of a number below 10. -/
def digitChar (n : Nat) : Char := Char.ofNat (48 + n % 10)

/-- Five decimal digits of a number below 100000, most significant first. -/
def fiveDigits (n : Nat) : List Char :=
  [digitChar (n / 10000), digitChar (n / 1000), digitChar (n / 100), digitChar (n / 10), digitChar n]

/-- A number below 100000 in decimal, without leading zeros. -/
def spellNat (n : Nat) : List Char :=
  if n = 0 then ['0'] else (fiveDigits n).dropWhile (· == '0')

/-- An integer token (30_encoding.md R87). -/
def spellInt (n : Int) : List Char := if n < 0 then '-' :: spellNat n.natAbs else spellNat n.natAbs

/-- A register token (30_encoding.md R86). -/
def spellReg (r : Reg) : List Char := ['R', digitChar r.val]

/-- Operands with a comma between each two (30_encoding.md R85). -/
def joinCommas : List (List Char) → List Char
  | [] => []
  | [p] => p
  | p :: ps => p ++ ',' :: joinCommas ps

/-- A mnemonic and, after one space, its operands (30_encoding.md R85). -/
def spellLine (op : Op) (operands : List (List Char)) : List Char :=
  match operands with
  | [] => op.mnemonic.toList
  | _ :: _ => op.mnemonic.toList ++ ' ' :: joinCommas operands

/-- A memory operand `offset(Rs)` (30_encoding.md R87). -/
def spellMem (offset : Int) (rs : Reg) : List Char := spellInt offset ++ '(' :: (spellReg rs ++ [')'])

/-- An assembler line for an instruction, in the spelling of 30_encoding.md R98's syntax column. -/
def spell : Instr → List Char
  | .add rd rs rt => spellLine .add [spellReg rd, spellReg rs, spellReg rt]
  | .addi rt rs imm => spellLine .addi [spellReg rt, spellReg rs, spellInt imm]
  | .sub rd rs rt => spellLine .sub [spellReg rd, spellReg rs, spellReg rt]
  | .slt rd rs rt => spellLine .slt [spellReg rd, spellReg rs, spellReg rt]
  | .bne rs rt offset => spellLine .bne [spellReg rs, spellReg rt, spellInt offset]
  | .j target => spellLine .j [spellInt target]
  | .jal target => spellLine .jal [spellInt target]
  | .lw rt offset rs => spellLine .lw [spellReg rt, spellMem offset rs]
  | .sw rt offset rs => spellLine .sw [spellReg rt, spellMem offset rs]
  | .cache code => spellLine .cache [spellInt code]
  | .halt => spellLine .halt []

end Sys2Proof
end

