-- ==== Sys2Proof/Machine/State.lean ====
section
/-! DEFINITION. The engine's whole state as plain data (10_state.md), and its value after power-on reset (R37). -/

namespace Sys2Proof.Machine

/-- The status register (10_state.md R27): why the engine is not executing. -/
inductive Status where
  /-- Code 0: power-on reset done, no run started since. -/
  | ready
  /-- Code 1: a run is in progress. -/
  | running
  /-- Code 2: the last run stopped because HALT cleared `running`. -/
  | halted
  /-- Code 3: the last run stopped because `pc >= L` with `running` still true. -/
  | exhausted
  /-- Code 4: the last run stopped on MalformedInstruction. -/
  | malformedInstruction
  /-- Code 5: the last run stopped on UnknownInstruction. -/
  | unknownInstruction
  /-- Code 6: the last run stopped on AddressOutOfRange. -/
  | addressOutOfRange
  /-- Code 7: the last run stopped on PcOutOfRange. -/
  | pcOutOfRange
deriving DecidableEq, Repr

/-- The four fault kinds a step can raise (60_exceptions.md R221), each with what it records beside `status` and `pc`. -/
inductive FaultKind where
  /-- At decode: the operands do not fit the mnemonic or tag, or the record is empty. -/
  | malformedInstruction
  /-- At decode: no such mnemonic or tag. -/
  | unknownInstruction
  /-- At execute, by LW and SW, before any access: the exact effective address that failed the check. -/
  | addressOutOfRange (ea : Int)
  /-- At fetch: `pc < 0`. -/
  | pcOutOfRange
deriving DecidableEq, Repr

/-- Values by address, in one canonical form: addresses strictly rising. The MemoryBus and the cache are kept so. -/
abbrev Cells := List (Nat × Word)

/-- The MemoryBus `M` (10_state.md R32): the cells that do not hold zero; every other cell holds zero, its
value after power-on (R37). DESIGN CHOICE (log entry 7), safe. -/
abbrev Memory := Cells

/-- The cache `C` (10_state.md R34): the valid lines, each with its data; every other line is invalid.
DESIGN CHOICE (log entry 8), safe. -/
abbrev Cache := Cells

/-- Everything the spec gives the machine: `(x[0..7], pc, running, status, fault_addr, enabled, M, C, I, L)`
(10_state.md), and the parameters of the engine it is a state of. `L` is the length of `program`. -/
@[ext]
structure State where
  /-- The engine's OPEN parameters (00_scope.md R7): the model's own field, which no step and no host operation
  writes. DESIGN CHOICE (log entry 1), safe. -/
  cfg : Config
  /-- `x[0..7]` (10_state.md R20). -/
  regs : Vector Word 8
  /-- The program counter, in instruction slots (10_state.md R25). -/
  pc : Int
  /-- The running flag (10_state.md R26). -/
  running : Bool
  /-- The status register (10_state.md R27). -/
  status : Status
  /-- The fault-address register (10_state.md R28). -/
  faultAddr : Int
  /-- The cache enabled flag (10_state.md R29). -/
  enabled : Bool
  /-- The MemoryBus (10_state.md R32). -/
  mem : Memory
  /-- The cache (10_state.md R34). -/
  cache : Cache
  /-- The instruction store `I` (10_state.md R33). -/
  program : List Record
deriving DecidableEq, Repr

/-- The reasons a step can stop without a next state: none. Every fault of the spec leaves a state the spec
describes (60_exceptions.md R226), so a faulting step answers that state, with `status` naming the kind. No
constructor, hence raised by nobody; safe, since nothing is stopped that the spec lets go on (log entry 4). -/
inductive Fault
deriving DecidableEq, Repr

/-- The reasons the model gives no meaning. -/
inductive Refusal where
  /-- Raised by `exec` alone, in the arm of an instruction without a meaning; at present by no arm. Safe. -/
  | notModelled (mnemonic : String)
deriving DecidableEq, Repr

/-- Power-on reset of an engine with the given parameters (10_state.md R37, 70_reset_and_hazards.md R250). -/
def State.resetWith (c : Config) : State where
  cfg := c
  regs := Vector.replicate 8 0
  pc := 0
  running := true
  status := .ready
  faultAddr := 0
  enabled := c.cacheEnabledAtReset
  mem := []
  cache := []
  program := []

/-- The engine right after power-on reset, its OPEN parameters unknown (log entry 2). -/
def State.reset : State := State.resetWith Config.unknown

end Sys2Proof.Machine
end

