-- ==== Sys2Proof/Machine/Operands.lean ====
section
/-! DEFINITION. The value domain of an engine, `wrap`, and the operand forms: register and base plus offset. -/

namespace Sys2Proof.Machine

/-- `n` is `sint` of some `XLEN`-bit pattern (00_scope.md R9). -/
abbrev fits (c : Config) (n : Int) : Prop := -(2 ^ (c.xlen - 1)) ≤ n ∧ n < 2 ^ (c.xlen - 1)

/-- `wrap(n)` (00_scope.md R9): the `XLEN`-bit pattern congruent to `n` modulo `2^XLEN`, as the integer it denotes. -/
def wrap (c : Config) (n : Int) : Word := (BitVec.ofInt c.xlen n).toInt

/-- `sint(x[i])` (00_scope.md R10). No register is hardwired (10_state.md R21). -/
def State.reg (s : State) (i : Reg) : Int := s.regs[i]

/-- The effective address `sint(x[rs]) + offset` of LW and SW: an exact integer, no wrap-around (43_load_store.md R180). -/
def effectiveAddress (s : State) (rs : Reg) (offset : Int) : Int := s.reg rs + offset

/-- `0 <= a < 256`: the address names a MemoryBus cell (20_memory.md R52, 43_load_store.md R180). -/
abbrev inMemory (a : Int) : Prop := 0 ≤ a ∧ a < (memCells : Int)

end Sys2Proof.Machine
end

