-- ==== Sys2Proof/Machine/Flags.lean ====
section
/-! DEFINITION. The engine has no condition codes (10_state.md R31). What stands in their place are the two comparisons
below, one delivered into a register by SLT, one consumed by BNE. -/

namespace Sys2Proof.Machine

/-- SLT's signed comparison, as the pattern of 1 or 0 (41_alu.md R146). -/
def setOnLess (a b : Word) : Word := if a < b then 1 else 0

/-- BNE's comparison of whole patterns (42_control.md R161, R162). Two patterns differ exactly when the integers
they denote do. -/
def patternsDiffer (a b : Word) : Bool := a != b

end Sys2Proof.Machine
end

