-- ==== Sys2Proof/Machine/Ops.lean ====
section
/-! DEFINITION. The named operations over registers, memory and cache, taking a fault, and the run start that alone
leaves a stop. -/

namespace Sys2Proof.Machine

/-! ### Values by address -/

/-- The value listed for an address. -/
def Cells.lookup (a : Nat) : Cells → Option Word
  | [] => none
  | (b, v) :: cs => if a = b then some v else Cells.lookup a cs

/-- The value listed for an address from now on; the list stays rising. -/
def Cells.insert (a : Nat) (v : Word) : Cells → Cells
  | [] => [(a, v)]
  | (b, w) :: cs =>
    if a < b then (a, v) :: (b, w) :: cs
    else if a = b then (a, v) :: cs
    else (b, w) :: Cells.insert a v cs

/-- No value listed for an address from now on. -/
def Cells.erase (a : Nat) : Cells → Cells
  | [] => []
  | (b, w) :: cs => if a = b then cs else (b, w) :: Cells.erase a cs

/-- Addresses strictly rise and name MemoryBus cells. -/
abbrev Cells.wf (cs : Cells) : Prop := cs.Pairwise (fun p q => p.1 < q.1) ∧ ∀ p ∈ cs, p.1 < memCells

/-! ### The MemoryBus (20_memory.md R50, R51) -/

/-- What an unlisted cell reads as: zero, the content after power-on (10_state.md R32, R37). -/
def memDefault : Word := 0

/-- The canonical form of a memory: rising addresses below 256, and no cell listed that reads as an unlisted one. -/
abbrev Memory.wf (m : Memory) : Prop := Cells.wf m ∧ ∀ p ∈ m, p.2 ≠ memDefault

/-- `MemRead(a, 1)` (20_memory.md R50). -/
def Memory.read (m : Memory) (a : Nat) : Word := (Cells.lookup a m).getD memDefault

/-- `MemWrite(a, 1, v)`, total replace (20_memory.md R51). -/
def Memory.write (m : Memory) (a : Nat) (v : Word) : Memory :=
  if v = memDefault then Cells.erase a m else Cells.insert a v m

/-! ### The cache (20_memory.md R55 to R59) -/

/-- The canonical form of a cache: rising addresses below 256. -/
abbrev Cache.wf (c : Cache) : Prop := Cells.wf c

/-- `CacheGet(a)` (20_memory.md R55): the entry on a hit, `none` on a miss, whatever the enabled flag. -/
def Cache.get (c : Cache) (a : Nat) : Option Word := Cells.lookup a c

/-- `CacheFill(a, v)` (20_memory.md R57): records the entry whatever the enabled flag. -/
def Cache.fill (c : Cache) (a : Nat) (v : Word) : Cache := Cells.insert a v c

/-- `CacheFlush()` (20_memory.md R58): no line is valid. -/
def Cache.flushed : Cache := []

/-! ### Operations on the state -/

/-- `x[i] <- v` (00_scope.md R10). -/
def State.setReg (s : State) (i : Reg) (v : Word) : State := { s with regs := s.regs.set i v }

/-- `pc <- t` (00_scope.md R13). -/
def State.setPc (s : State) (t : Int) : State := { s with pc := t }

/-- The generic increment `pc <- pc + 1` that ends every step without a fault (40_execution_cycle.md R113). -/
def State.advance (s : State) : State := s.setPc (s.pc + 1)

/-- `MemWrite(a, 1, v)` on the state. -/
def State.memWrite (s : State) (a : Nat) (v : Word) : State := { s with mem := Memory.write s.mem a v }

/-- `CacheSet(a, v)`: a no-op when the cache is disabled (20_memory.md R56). -/
def State.cacheSet (s : State) (a : Nat) (v : Word) : State :=
  { s with cache := if s.enabled then Cache.fill s.cache a v else s.cache }

/-- `CacheFill(a, v)` on the state (20_memory.md R57). -/
def State.cacheFill (s : State) (a : Nat) (v : Word) : State := { s with cache := Cache.fill s.cache a v }

/-- `CacheFlush()` on the state; the enabled flag keeps its value (20_memory.md R58). -/
def State.cacheFlush (s : State) : State := { s with cache := Cache.flushed }

/-- Enabling or disabling the cache: the entries stay (20_memory.md R59). -/
def State.setEnabled (s : State) (b : Bool) : State := { s with enabled := b }

/-- The value of `ReadPath(a)` (20_memory.md R60): the entry on a hit, stale or not, else the cell. -/
def State.readValue (s : State) (a : Nat) : Word := (Cache.get s.cache a).getD (Memory.read s.mem a)

/-- The effect of `ReadPath(a)` on the state (20_memory.md R60): none on a hit, `CacheSet` of the cell on a miss. -/
def State.readEffect (s : State) (a : Nat) : State :=
  match Cache.get s.cache a with
  | some _ => s
  | none => s.cacheSet a (Memory.read s.mem a)

/-- `WritePath(a, v)` (20_memory.md R61): the store always reaches the MemoryBus, the cache only when enabled. -/
def State.writePath (s : State) (a : Nat) (v : Word) : State := (s.memWrite a v).cacheSet a v

/-! ### Faults and the run start -/

/-- The status a fault kind leaves (60_exceptions.md R221). -/
def FaultKind.status : FaultKind → Status
  | .malformedInstruction => .malformedInstruction
  | .unknownInstruction => .unknownInstruction
  | .addressOutOfRange _ => .addressOutOfRange
  | .pcOutOfRange => .pcOutOfRange

/-- The fault-address register after a fault: the effective address for AddressOutOfRange, else as it was
(60_exceptions.md R226). -/
def FaultKind.faultAddrAfter (before : Int) : FaultKind → Int
  | .addressOutOfRange ea => ea
  | .malformedInstruction => before
  | .unknownInstruction => before
  | .pcOutOfRange => before

/-- Taking a fault (60_exceptions.md R226, R228): `status` and, for AddressOutOfRange, `fault_addr`; nothing else.
There is no trap entry, and `pc` keeps the index of the failing instruction. -/
def State.takeFault (s : State) (k : FaultKind) : State :=
  { s with status := k.status, faultAddr := k.faultAddrAfter s.faultAddr }

/-- The run-start reset (70_reset_and_hazards.md R251). There is no trap return (60_exceptions.md R229): this is
the one way out of a stop. -/
def State.runStart (s : State) : State :=
  { s with
    pc := 0
    running := true
    status := .running
    faultAddr := 0
    mem := if s.cfg.runResetsMemory then [] else s.mem
    cache := if s.cfg.runResetsCache then Cache.flushed else s.cache }

/-- The numeric code of a status (10_state.md R27). -/
def Status.code : Status → Nat
  | .ready => 0
  | .running => 1
  | .halted => 2
  | .exhausted => 3
  | .malformedInstruction => 4
  | .unknownInstruction => 5
  | .addressOutOfRange => 6
  | .pcOutOfRange => 7

end Sys2Proof.Machine
end

