-- ==== Sys2Proof/Machine/Arith.lean ====
section
/-! DEFINITION. ADD, ADDI, SUB and SLT (41_alu.md). None raises a fault and none has a flag side effect. -/

namespace Sys2Proof.Machine

/-- ADD (41_alu.md R140): `x[rd] <- wrap(sint(x[rs]) + sint(x[rt]))`. -/
def execAdd (rd rs rt : Reg) (s : State) : Host.Outcome State Fault Refusal :=
  .next (s.setReg rd (wrap s.cfg (s.reg rs + s.reg rt))).advance

/-- ADDI (41_alu.md R148): `x[rt] <- wrap(sint(x[rs]) + imm)`. -/
def execAddi (rt rs : Reg) (imm : Int) (s : State) : Host.Outcome State Fault Refusal :=
  .next (s.setReg rt (wrap s.cfg (s.reg rs + imm))).advance

/-- SUB (41_alu.md R142): `x[rd] <- wrap(sint(x[rs]) - sint(x[rt]))`. -/
def execSub (rd rs rt : Reg) (s : State) : Host.Outcome State Fault Refusal :=
  .next (s.setReg rd (wrap s.cfg (s.reg rs - s.reg rt))).advance

/-- SLT (41_alu.md R146): `x[rd] <- (if sint(x[rs]) < sint(x[rt]) then 1 else 0)`. -/
def execSlt (rd rs rt : Reg) (s : State) : Host.Outcome State Fault Refusal :=
  .next (s.setReg rd (setOnLess (s.reg rs) (s.reg rt))).advance

end Sys2Proof.Machine
end

