-- ==== Sys2Proof/Machine/Control.lean ====
section
/-! DEFINITION. BNE, J and JAL (42_control.md). Each writes `pc` in its handler, and the generic increment then adds 1 to
what the handler wrote (R160). None checks its target. -/

namespace Sys2Proof.Machine

/-- BNE (42_control.md R161): `if x[rs] != x[rt] then pc <- pc + offset`. -/
def execBne (rs rt : Reg) (offset : Int) (s : State) : Host.Outcome State Fault Refusal :=
  .next (if patternsDiffer (s.reg rs) (s.reg rt) then s.setPc (s.pc + offset) else s).advance

/-- J (42_control.md R164): `pc <- target`. -/
def execJ (target : Int) (s : State) : Host.Outcome State Fault Refusal :=
  .next (s.setPc target).advance

/-- JAL (42_control.md R166): `x[7] <- wrap(pc + 1); pc <- target`. -/
def execJal (target : Int) (s : State) : Host.Outcome State Fault Refusal :=
  .next ((s.setReg linkReg (wrap s.cfg (s.pc + 1))).setPc target).advance

end Sys2Proof.Machine
end

