-- ==== Sys2Proof/Machine/LoadStore.lean ====
section
/-! DEFINITION. LW and SW (43_load_store.md). The effective address is checked before any access; an address outside the
MemoryBus takes the AddressOutOfRange fault, without the generic increment. -/

namespace Sys2Proof.Machine

/-- LW (43_load_store.md R181, R182): `x[rt] <- ReadPath(ea)`. -/
def execLw (rt : Reg) (offset : Int) (rs : Reg) (s : State) : Host.Outcome State Fault Refusal :=
  let ea := effectiveAddress s rs offset
  if inMemory ea then
    .next ((s.readEffect ea.toNat).setReg rt (s.readValue ea.toNat)).advance
  else .next (s.takeFault (.addressOutOfRange ea))

/-- SW (43_load_store.md R185, R186): `WritePath(ea, x[rt])`. -/
def execSw (rt : Reg) (offset : Int) (rs : Reg) (s : State) : Host.Outcome State Fault Refusal :=
  let ea := effectiveAddress s rs offset
  if inMemory ea then .next (s.writePath ea.toNat (s.reg rt)).advance
  else .next (s.takeFault (.addressOutOfRange ea))

end Sys2Proof.Machine
end

