-- ==== Sys2Proof/Machine/System.lean ====
section
/-! DEFINITION. CACHE and HALT (44_system.md). Neither raises a fault nor needs a mode (60_exceptions.md R231). -/

namespace Sys2Proof.Machine

/-- The effect of a CACHE code (44_system.md R200): 0 disables, 1 enables, 2 flushes, any other does nothing (R203). -/
def State.cacheControl (s : State) (code : Int) : State :=
  if code = 0 then s.setEnabled false
  else if code = 1 then s.setEnabled true
  else if code = 2 then s.cacheFlush
  else s

/-- CACHE (44_system.md R200). -/
def execCache (code : Int) (s : State) : Host.Outcome State Fault Refusal :=
  .next (s.cacheControl code).advance

/-- HALT (44_system.md R205, R206): `running <- false`, and the generic increment as after every step. -/
def execHalt (s : State) : Host.Outcome State Fault Refusal :=
  .next { s with running := false }.advance

end Sys2Proof.Machine
end

