-- ==== Sys2Proof/Machine/Dispatch.lean ====
section
/-! DEFINITION. Dispatch: an exhaustive match on the decoded instruction (40_execution_cycle.md R114). -/

namespace Sys2Proof.Machine

/-- One decoded instruction, its handler and the generic increment (40_execution_cycle.md R112, R113). -/
def exec (i : Instr) (s : State) : Host.Outcome State Fault Refusal :=
  match i with
  | .add rd rs rt => Sys2Proof.Machine.execAdd rd rs rt s
  | .addi rt rs imm => Sys2Proof.Machine.execAddi rt rs imm s
  | .sub rd rs rt => Sys2Proof.Machine.execSub rd rs rt s
  | .slt rd rs rt => Sys2Proof.Machine.execSlt rd rs rt s
  | .bne rs rt offset => Sys2Proof.Machine.execBne rs rt offset s
  | .j target => Sys2Proof.Machine.execJ target s
  | .jal target => Sys2Proof.Machine.execJal target s
  | .lw rt offset rs => Sys2Proof.Machine.execLw rt offset rs s
  | .sw rt offset rs => Sys2Proof.Machine.execSw rt offset rs s
  | .cache code => Sys2Proof.Machine.execCache code s
  | .halt => Sys2Proof.Machine.execHalt s

end Sys2Proof.Machine
end

