-- ==== Sys2Proof/Machine/Cycle.lean ====
section
/-! DEFINITION. Fetch, decode, dispatch, and the checks of the run loop before a step (40_execution_cycle.md R112, R120);
and how a packed word is put where the next step fetches. -/

namespace Sys2Proof.Machine

/-- `L`, the length of the loaded program (10_state.md R33). -/
def State.progLen (s : State) : Int := (s.program.length : Int)

/-- `I[p]` (00_scope.md R14). It is asked for only with `0 <= p < L`; what it answers elsewhere is never used. -/
def State.recordAt (s : State) (p : Int) : Record := (s.program[p.toNat]?).getD (Record.text "")

/-- The fault a decode error raises (30_encoding.md R92, R93). -/
def faultOfDecodeError : DecodeError → FaultKind
  | .unknownInstruction => .unknownInstruction
  | .malformedInstruction => .malformedInstruction

/-- Fetch and decode of the instruction at `pc` (40_execution_cycle.md R112): PcOutOfRange first, then the
decoder's own order (60_exceptions.md R227). -/
def State.fetch (s : State) : Except FaultKind Instr :=
  if s.pc < 0 then .error .pcOutOfRange
  else
    match decodeRecord (s.recordAt s.pc) with
    | .ok i => .ok i
    | .error e => .error (faultOfDecodeError e)

/-- `step()` (40_execution_cycle.md R112): fetch, decode, dispatch; a fault ends it (60_exceptions.md R226). -/
def stepInstruction (s : State) : Host.Outcome State Fault Refusal :=
  match s.fetch with
  | .ok i => exec i s
  | .error k => .next (s.takeFault k)

/-- One turn of the run loop (40_execution_cycle.md R120): the two stop checks in their order (R123), then a step. -/
def loopTurn (s : State) : Host.Outcome State Fault Refusal :=
  if s.running = false then .next { s with status := .halted }
  else if s.progLen ≤ s.pc then .next { s with status := .exhausted }
  else stepInstruction s

/-- One step of the engine: a turn of the run loop while a run is in progress, and nothing at all otherwise
(60_exceptions.md R236). DESIGN CHOICE (log entry 5), safe. -/
def engineStep (s : State) : Host.Outcome State Fault Refusal :=
  if s.status = .running then loopTurn s else .next s

/-- The slot a word is put into for the next step: `pc` where the instruction store can hold it, else 0. -/
def fetchSlot (pc : Int) : Nat := if 0 ≤ pc ∧ pc < (lMax : Int) then pc.toNat else 0

/-- A program with a record at a slot, empty records before it where the program is shorter. -/
def placeRecord (program : List Record) (slot : Nat) (r : Record) : List Record :=
  (program ++ List.replicate (slot + 1 - program.length) (Record.text "")).set slot r

/-- A state whose very next step fetches the packed word, a run being in progress (log entry 6). -/
def placeForFetch (s : State) (w : PackedWord) : State :=
  { s with
    pc := (fetchSlot s.pc : Int)
    running := true
    status := .running
    program := placeRecord s.program (fetchSlot s.pc) (.packed w) }

end Sys2Proof.Machine
end

