-- ==== Sys2Proof/Machine/HostOps.lean ====
section
/-! DEFINITION. The host interface (40_execution_cycle.md R130 to R136): power-on reset, the two feeds, run and snapshot. -/

namespace Sys2Proof.Machine

/-- Why a host operation is rejected; a rejected operation writes nothing and is no fault (60_exceptions.md R230). -/
inductive HostError where
  /-- The initialisation feed holds an address outside `[0, 256)` (40_execution_cycle.md R131). -/
  | addressOutOfRange
  /-- The initialisation feed holds a value outside the `XLEN` range (40_execution_cycle.md R131). -/
  | initValueOutOfRange
  /-- The program feed is longer than `L_MAX` (40_execution_cycle.md R132). -/
  | programTooLong
  /-- `run()` while a run is in progress (40_execution_cycle.md R133). -/
  | busy
  /-- Any other operation while a run is in progress, which the host may not invoke (40_execution_cycle.md R130).
  DESIGN CHOICE (log entry 11), safe. -/
  | runInProgress
deriving DecidableEq, Repr

/-- How a run ended (40_execution_cycle.md R133, R137): a normal stop, or a fault with its position. -/
inductive Stop where
  | halted
  | exhausted
  /-- The kind, which carries `fault_addr` for AddressOutOfRange, and the failing instruction's index. -/
  | fault (kind : FaultKind) (pc : Int)
deriving DecidableEq, Repr

/-- What `snapshot()` returns (40_execution_cycle.md R134). -/
structure Snapshot where
  /-- `sint(x[0])` to `sint(x[7])`. -/
  registers : List Int
  /-- Every `(a, sint(M[a]))` with `M[a] != 0`, `a` ascending. -/
  memory : List (Nat × Int)
  status : Status
  running : Bool
  pc : Int
  faultAddr : Int
deriving DecidableEq, Repr

/-- What a run under a step budget gives (40_execution_cycle.md R125): a stop, or the budget used up, which is no stop. -/
inductive RunResult where
  | stopped (stop : Stop) (s : State)
  | outOfFuel (s : State)
  /-- The step answered a fault or refusal of the model's own; at present no step does. -/
  | noMeaning (s : State)
deriving DecidableEq, Repr

/-- Power-on reset as a host operation (40_execution_cycle.md R135, 70_reset_and_hazards.md R250). -/
def hostPowerOn (s : State) : Except HostError State :=
  if s.status = .running then .error .runInProgress else .ok (State.resetWith s.cfg)

/-- One pair of the initialisation feed: into the MemoryBus and unconditionally into the cache (40_execution_cycle.md R131). -/
def initPair (s : State) (a : Nat) (n : Int) : State :=
  (s.memWrite a (wrap s.cfg n)).cacheFill a (wrap s.cfg n)

/-- The pairs of a checked feed, in list order (40_execution_cycle.md R131). -/
def initPairs (s : State) (pairs : List (Int × Int)) : State :=
  pairs.foldl (fun t p => initPair t p.1.toNat p.2) s

/-- The initialisation feed `init(pairs)` (40_execution_cycle.md R131). The addresses are judged first: DEDUCED
(log entry 12). -/
def hostInit (pairs : List (Int × Int)) (s : State) : Except HostError State :=
  if s.status = .running then .error .runInProgress
  else if ∃ p ∈ pairs, ¬ inMemory p.1 then .error .addressOutOfRange
  else if ∃ p ∈ pairs, ¬ fits s.cfg p.2 then .error .initValueOutOfRange
  else .ok (initPairs s pairs)

/-- The program feed `load(records)` (40_execution_cycle.md R132): nothing is decoded. -/
def hostLoad (records : List Record) (s : State) : Except HostError State :=
  if s.status = .running then .error .runInProgress
  else if lMax < records.length then .error .programTooLong
  else .ok { s with program := records }

/-- The start of `run()`: Busy while a run is in progress, else the run-start reset (40_execution_cycle.md R133, R120). -/
def hostRunStart (s : State) : Except HostError State :=
  if s.status = .running then .error .busy else .ok s.runStart

/-- The stop a state stands at, if it does (10_state.md R27, 40_execution_cycle.md R133). -/
def State.stop? (s : State) : Option Stop :=
  match s.status with
  | .ready => none
  | .running => none
  | .halted => some .halted
  | .exhausted => some .exhausted
  | .malformedInstruction => some (.fault .malformedInstruction s.pc)
  | .unknownInstruction => some (.fault .unknownInstruction s.pc)
  | .addressOutOfRange => some (.fault (.addressOutOfRange s.faultAddr) s.pc)
  | .pcOutOfRange => some (.fault .pcOutOfRange s.pc)

/-- The run loop under a budget of turns (40_execution_cycle.md R120, R125). -/
def runLoop : Nat → State → RunResult
  | 0, s =>
    match s.stop? with
    | some stop => .stopped stop s
    | none => .outOfFuel s
  | fuel + 1, s =>
    match s.stop? with
    | some stop => .stopped stop s
    | none =>
      match step s with
      | .next t => runLoop fuel t
      | .fault _ => .noMeaning s
      | .refused _ => .noMeaning s

/-- `run()` under a budget of turns (40_execution_cycle.md R133). -/
def hostRun (fuel : Nat) (s : State) : Except HostError RunResult :=
  match hostRunStart s with
  | .ok t => .ok (runLoop fuel t)
  | .error e => .error e

/-- `snapshot()` (40_execution_cycle.md R134): it reads the MemoryBus, never the cache, and changes nothing. -/
def State.snapshot (s : State) : Snapshot where
  registers := s.regs.toList
  memory := s.mem
  status := s.status
  running := s.running
  pc := s.pc
  faultAddr := s.faultAddr

/-- `snapshot()` as a host operation (40_execution_cycle.md R130, R134). -/
def hostSnapshot (s : State) : Except HostError Snapshot :=
  if s.status = .running then .error .runInProgress else .ok s.snapshot

/-- The host operations that write state; a run is `runStart` and then steps. -/
inductive HostCommand where
  | powerOn
  | init (pairs : List (Int × Int))
  | load (records : List Record)
  | runStart
deriving DecidableEq, Repr

/-- One host operation, atomic with respect to steps (40_execution_cycle.md R130). -/
def hostApply : HostCommand → State → Except HostError State
  | .powerOn, s => hostPowerOn s
  | .init pairs, s => hostInit pairs s
  | .load records, s => hostLoad records s
  | .runStart, s => hostRunStart s

end Sys2Proof.Machine
end

