-- ==== Sys2Proof/Safety.lean ====
section
/-! DEFINITION. What counts as a good state, and the words the statements use: the invariant, coherence, a run in
progress, what an instruction may write, and when two states differ in one part only. -/

namespace Sys2Proof.Machine

/-- A run is in progress and HALT has not executed: the run loop goes on to its `pc` check (40_execution_cycle.md R120). -/
def Executing (s : State) : Prop := s.status = .running ∧ s.running = true

/-- A step is about to execute the instruction `i`: a run is in progress, `0 <= pc < L`, and the record at `pc`
decodes to `i` (40_execution_cycle.md R112, R120). -/
def AboutToRun (s : State) (i : Instr) : Prop :=
  Executing s ∧ 0 ≤ s.pc ∧ s.pc < s.progLen ∧ decodeRecord (s.recordAt s.pc) = .ok i

/-- The representation invariant: memory and cache in canonical form, every stored value an `XLEN`-bit pattern
(10_state.md R20, R32, R34), and a program the store accepts (R33). -/
structure State.Inv (s : State) : Prop where
  mem_wf : Memory.wf s.mem
  cache_wf : Cache.wf s.cache
  regs_fit : ∀ i, fits s.cfg (s.reg i)
  mem_fit : ∀ p ∈ s.mem, fits s.cfg p.2
  cache_fit : ∀ p ∈ s.cache, fits s.cfg p.2
  program_fits : s.program.length ≤ lMax

/-- The values a program can give `pc` (10_state.md R25). -/
def PcReachable (s : State) : Prop := -32767 ≤ s.pc ∧ s.pc ≤ 65534

/-- `running` is false after HALTED and true after EXHAUSTED (40_execution_cycle.md R124). -/
def StopsTellRunning (s : State) : Prop :=
  (s.status = .halted → s.running = false) ∧ (s.status = .exhausted → s.running = true)

/-- The coherence invariant `Coh` (20_memory.md R62). -/
def Coherent (s : State) : Prop :=
  ∀ a v, Cache.get s.cache a = some v → v = Memory.read s.mem a

/-- The store of 20_memory.md R62 (1): an SW executed while the cache is disabled, to an address whose line is
valid, of a value other than the line's. -/
def DisabledStaleStore (i : Instr) (s : State) : Prop :=
  ∃ rt offset rs v, i = .sw rt offset rs ∧ inMemory (effectiveAddress s rs offset) ∧ s.enabled = false ∧
    Cache.get s.cache (effectiveAddress s rs offset).toNat = some v ∧ v ≠ s.reg rt

/-- The register an instruction writes, if any (10_state.md R23). -/
def destination : Instr → Option Reg
  | .add rd _ _ => some rd
  | .addi rt _ _ => some rt
  | .sub rd _ _ => some rd
  | .slt rd _ _ => some rd
  | .bne _ _ _ => none
  | .j _ => none
  | .jal _ => some linkReg
  | .lw rt _ _ => some rt
  | .sw _ _ _ => none
  | .cache _ => none
  | .halt => none

/-- The MemoryBus cell an instruction stores to, if any: the effective address of an SW that does not fault
(43_load_store.md R185, 20_memory.md R67). -/
def storedCell (i : Instr) (s : State) : Option Nat :=
  match i with
  | .sw _ offset rs =>
    if inMemory (effectiveAddress s rs offset) then some (effectiveAddress s rs offset).toNat else none
  | .add _ _ _ => none
  | .addi _ _ _ => none
  | .sub _ _ _ => none
  | .slt _ _ _ => none
  | .bne _ _ _ => none
  | .j _ => none
  | .jal _ => none
  | .lw _ _ _ => none
  | .cache _ => none
  | .halt => none

/-- The cell whose cache line an instruction may write: the effective address of an LW or SW that does not fault. -/
def accessedCell (i : Instr) (s : State) : Option Nat :=
  match i with
  | .lw _ offset rs =>
    if inMemory (effectiveAddress s rs offset) then some (effectiveAddress s rs offset).toNat else none
  | .sw _ offset rs =>
    if inMemory (effectiveAddress s rs offset) then some (effectiveAddress s rs offset).toNat else none
  | .add _ _ _ => none
  | .addi _ _ _ => none
  | .sub _ _ _ => none
  | .slt _ _ _ => none
  | .bne _ _ _ => none
  | .j _ => none
  | .jal _ => none
  | .cache _ => none
  | .halt => none

/-- The effective address of an LW or SW (43_load_store.md R180). -/
def dataAddress (i : Instr) (s : State) : Option Int :=
  match i with
  | .lw _ offset rs => some (effectiveAddress s rs offset)
  | .sw _ offset rs => some (effectiveAddress s rs offset)
  | .add _ _ _ => none
  | .addi _ _ _ => none
  | .sub _ _ _ => none
  | .slt _ _ _ => none
  | .bne _ _ _ => none
  | .j _ => none
  | .jal _ => none
  | .cache _ => none
  | .halt => none

/-- The exact integer that an instruction wraps into its destination (41_alu.md R144, 42_control.md R166). -/
def exactResult (i : Instr) (s : State) : Option Int :=
  match i with
  | .add _ rs rt => some (s.reg rs + s.reg rt)
  | .addi _ rs imm => some (s.reg rs + imm)
  | .sub _ rs rt => some (s.reg rs - s.reg rt)
  | .jal _ => some (s.pc + 1)
  | .slt _ _ _ => none
  | .bne _ _ _ => none
  | .j _ => none
  | .lw _ _ _ => none
  | .sw _ _ _ => none
  | .cache _ => none
  | .halt => none

/-- Where the instruction after `i` stands when `i` does not fault: what its handler leaves in `pc`, plus 1
(42_control.md R160). -/
def nextPc (i : Instr) (s : State) : Int :=
  match i with
  | .bne rs rt offset => if s.reg rs ≠ s.reg rt then s.pc + offset + 1 else s.pc + 1
  | .j target => target + 1
  | .jal target => target + 1
  | .add _ _ _ => s.pc + 1
  | .addi _ _ _ => s.pc + 1
  | .sub _ _ _ => s.pc + 1
  | .slt _ _ _ => s.pc + 1
  | .lw _ _ _ => s.pc + 1
  | .sw _ _ _ => s.pc + 1
  | .cache _ => s.pc + 1
  | .halt => s.pc + 1

/-- The two states agree in everything but the cache and its enabled flag. -/
def AgreeButCache (s t : State) : Prop := t = { s with cache := t.cache, enabled := t.enabled }

/-- The two states agree in everything but the engine's parameters. -/
def AgreeButParameters (s t : State) : Prop := t = { s with cfg := t.cfg }

/-- The fault statuses (10_state.md R27, codes 4 to 7). -/
def Status.isFault : Status → Bool
  | .ready => false
  | .running => false
  | .halted => false
  | .exhausted => false
  | .malformedInstruction => true
  | .unknownInstruction => true
  | .addressOutOfRange => true
  | .pcOutOfRange => true

/-- An instruction's encoding as its rule gives it: the words under the mask that show the pattern, and no others,
decode to the instruction with these fields (30_encoding.md R98). -/
def WordsDecodeTo (pattern mask : PackedWord) (ofWord : PackedWord → Instr) : Prop :=
  ∀ w, w &&& mask = pattern ↔ decodeWord w = .ok (ofWord w)

/-- `digit { digit }` (30_encoding.md R85). -/
def DigitRun (ds : List Char) : Prop := ds ≠ [] ∧ ds.all isDecDigit = true

/-- What a line with a literal of this value decodes to: the instruction where the value lies in 16 signed bits, else
MalformedInstruction (30_encoding.md R96). -/
def inLiteralRange (n : Int) (i : Instr) : Except DecodeError Instr :=
  if -32768 ≤ n ∧ n ≤ 32767 then .ok i else .error .malformedInstruction

/-- The value the initialisation feed leaves at an address: the last pair's for it (40_execution_cycle.md R131). -/
def lastInit (pairs : List (Int × Int)) (a : Nat) : Option Int :=
  (pairs.reverse.find? (fun p => p.1 == (a : Int))).map (fun p => p.2)

end Sys2Proof.Machine
end

