-- ==== Sys2Proof/Certificates/Slice0/Obligations.lean ====
section
/-! DEFINITION. The statements for the provers: one `def Obligations.<Name> : Prop` each, listed in OBLIGATIONS.json. -/

open Sys2Proof Sys2Proof.Machine

/-! ### One rule per instruction: its encoding, its spelling, and the state it leaves -/

/-- ADD (41_alu.md R140): encoding, spelling, and the one state it leaves from every state and all operands. -/
def Obligations.AddWritesWrappedSum : Prop :=
  WordsDecodeTo 0x00000000 0xF007FFFF (fun w => .add (fieldA w) (fieldB w) (fieldC w)) ∧
  ∀ rd rs rt, decodeText (spell (.add rd rs rt)) = .ok (.add rd rs rt) ∧
    ∀ s, exec (.add rd rs rt) s =
      .next { s with regs := s.regs.set rd (wrap s.cfg (s.reg rs + s.reg rt)), pc := s.pc + 1 }

/-- SUB (41_alu.md R142). -/
def Obligations.SubWritesWrappedDifference : Prop :=
  WordsDecodeTo 0x20000000 0xF007FFFF (fun w => .sub (fieldA w) (fieldB w) (fieldC w)) ∧
  ∀ rd rs rt, decodeText (spell (.sub rd rs rt)) = .ok (.sub rd rs rt) ∧
    ∀ s, exec (.sub rd rs rt) s =
      .next { s with regs := s.regs.set rd (wrap s.cfg (s.reg rs - s.reg rt)), pc := s.pc + 1 }

/-- SLT (41_alu.md R146). -/
def Obligations.SltWritesSignedComparison : Prop :=
  WordsDecodeTo 0x30000000 0xF007FFFF (fun w => .slt (fieldA w) (fieldB w) (fieldC w)) ∧
  ∀ rd rs rt, decodeText (spell (.slt rd rs rt)) = .ok (.slt rd rs rt) ∧
    ∀ s, exec (.slt rd rs rt) s =
      .next { s with regs := s.regs.set rd (if s.reg rs < s.reg rt then 1 else 0), pc := s.pc + 1 }

/-- ADDI (41_alu.md R148). -/
def Obligations.AddiWritesWrappedSumWithLiteral : Prop :=
  WordsDecodeTo 0x10000000 0xF03F0000 (fun w => .addi (fieldA w) (fieldB w) (litField w)) ∧
  ∀ rt rs imm, -32768 ≤ imm ∧ imm ≤ 32767 → decodeText (spell (.addi rt rs imm)) = .ok (.addi rt rs imm) ∧
    ∀ s, exec (.addi rt rs imm) s =
      .next { s with regs := s.regs.set rt (wrap s.cfg (s.reg rs + imm)), pc := s.pc + 1 }

/-- BNE (42_control.md R161), with the generic increment on top of the handler's `pc` (R160). -/
def Obligations.BneBranchesWhenRegistersDiffer : Prop :=
  WordsDecodeTo 0x40000000 0xF03F0000 (fun w => .bne (fieldA w) (fieldB w) (litField w)) ∧
  ∀ rs rt offset, -32768 ≤ offset ∧ offset ≤ 32767 →
    decodeText (spell (.bne rs rt offset)) = .ok (.bne rs rt offset) ∧
    ∀ s, exec (.bne rs rt offset) s =
      .next { s with pc := if s.reg rs ≠ s.reg rt then s.pc + offset + 1 else s.pc + 1 }

/-- J (42_control.md R164): the instruction at the target itself is skipped. -/
def Obligations.JumpContinuesAfterTarget : Prop :=
  WordsDecodeTo 0x50000000 0xFFFF0000 (fun w => .j (litField w)) ∧
  ∀ target, -32768 ≤ target ∧ target ≤ 32767 → decodeText (spell (.j target)) = .ok (.j target) ∧
    ∀ s, exec (.j target) s = .next { s with pc := target + 1 }

/-- JAL (42_control.md R166): the link value is that of the executing instruction's index. -/
def Obligations.JumpAndLinkSavesNextIndex : Prop :=
  WordsDecodeTo 0x60000000 0xFFFF0000 (fun w => .jal (litField w)) ∧
  ∀ target, -32768 ≤ target ∧ target ≤ 32767 → decodeText (spell (.jal target)) = .ok (.jal target) ∧
    ∀ s, exec (.jal target) s =
      .next { s with regs := s.regs.set 7 (wrap s.cfg (s.pc + 1)), pc := target + 1 }

/-- LW (43_load_store.md R181, with `ReadPath` of 20_memory.md R60 written out): the load from every state whose
effective address names a cell, and the fault from every other. -/
def Obligations.LoadReadsCacheThenMemory : Prop :=
  WordsDecodeTo 0x70000000 0xF03F0000 (fun w => .lw (fieldA w) (litField w) (fieldB w)) ∧
  ∀ rt offset rs, -32768 ≤ offset ∧ offset ≤ 32767 →
    decodeText (spell (.lw rt offset rs)) = .ok (.lw rt offset rs) ∧
    ∀ s,
      (0 ≤ s.reg rs + offset → s.reg rs + offset < 256 →
        (∀ v, Cache.get s.cache (s.reg rs + offset).toNat = some v →
          exec (.lw rt offset rs) s = .next { s with regs := s.regs.set rt v, pc := s.pc + 1 }) ∧
        (Cache.get s.cache (s.reg rs + offset).toNat = none →
          exec (.lw rt offset rs) s =
            .next { s with
              regs := s.regs.set rt (Memory.read s.mem (s.reg rs + offset).toNat)
              cache :=
                if s.enabled then
                  Cache.fill s.cache (s.reg rs + offset).toNat (Memory.read s.mem (s.reg rs + offset).toNat)
                else s.cache
              pc := s.pc + 1 })) ∧
      (s.reg rs + offset < 0 ∨ 256 ≤ s.reg rs + offset →
        exec (.lw rt offset rs) s =
          .next { s with status := .addressOutOfRange, faultAddr := s.reg rs + offset })

/-- SW (43_load_store.md R185, with `WritePath` of 20_memory.md R61 written out): the store from every state whose
effective address names a cell, and the fault from every other. -/
def Obligations.StoreWritesMemoryAndEnabledCache : Prop :=
  WordsDecodeTo 0x80000000 0xF03F0000 (fun w => .sw (fieldA w) (litField w) (fieldB w)) ∧
  ∀ rt offset rs, -32768 ≤ offset ∧ offset ≤ 32767 →
    decodeText (spell (.sw rt offset rs)) = .ok (.sw rt offset rs) ∧
    ∀ s,
      (0 ≤ s.reg rs + offset → s.reg rs + offset < 256 →
        exec (.sw rt offset rs) s =
          .next { s with
            mem := Memory.write s.mem (s.reg rs + offset).toNat (s.reg rt)
            cache :=
              if s.enabled then Cache.fill s.cache (s.reg rs + offset).toNat (s.reg rt) else s.cache
            pc := s.pc + 1 }) ∧
      (s.reg rs + offset < 0 ∨ 256 ≤ s.reg rs + offset →
        exec (.sw rt offset rs) s =
          .next { s with status := .addressOutOfRange, faultAddr := s.reg rs + offset })

/-- LW and SW outside `[0, 256)` (43_load_store.md R182, R186), as a step of a run: the status is that of
AddressOutOfRange, the fault-address register holds the exact effective address, the destination and data
registers, the MemoryBus, the cache and `pc` are unchanged. That status is not RUNNING: the run has stopped. -/
def Obligations.AccessOutsideMemoryStopsTheRun : Prop :=
  ∀ s rt offset rs, effectiveAddress s rs offset < 0 ∨ 256 ≤ effectiveAddress s rs offset →
    AboutToRun s (.lw rt offset rs) ∨ AboutToRun s (.sw rt offset rs) →
    ∃ t, step s = .next t ∧ t.status = .addressOutOfRange ∧ t.faultAddr = effectiveAddress s rs offset ∧
      (∀ r, t.reg r = s.reg r) ∧ t.mem = s.mem ∧ t.cache = s.cache ∧ t.pc = s.pc ∧ t.running = s.running ∧
      t.enabled = s.enabled

/-- CACHE (44_system.md R200 to R203), every code. -/
def Obligations.CacheControlFollowsItsCode : Prop :=
  WordsDecodeTo 0x90000000 0xFFFF0000 (fun w => .cache (litField w)) ∧
  (∀ code, -32768 ≤ code ∧ code ≤ 32767 → decodeText (spell (.cache code)) = .ok (.cache code)) ∧
  ∀ s,
    exec (.cache 0) s = .next { s with enabled := false, pc := s.pc + 1 } ∧
    exec (.cache 1) s = .next { s with enabled := true, pc := s.pc + 1 } ∧
    exec (.cache 2) s = .next { s with cache := [], pc := s.pc + 1 } ∧
    (∀ a, Cache.get [] a = none) ∧
    ∀ code, code ≠ 0 ∧ code ≠ 1 ∧ code ≠ 2 → exec (.cache code) s = .next { s with pc := s.pc + 1 }

/-- HALT (44_system.md R205, R206). -/
def Obligations.HaltClearsRunning : Prop :=
  WordsDecodeTo 0xA0000000 0xFFFFFFFF (fun _ => .halt) ∧
  decodeText (spell .halt) = .ok .halt ∧
  ∀ s, exec .halt s = .next { s with running := false, pc := s.pc + 1 }

/-! ### Frames -/

/-- The register frame of all eleven instructions (10_state.md R23): a register other than the destination keeps
its value. -/
def Obligations.OnlyDestinationRegisterChanges : Prop :=
  ∀ i s t, exec i s = .next t → ∀ r, destination i ≠ some r → t.reg r = s.reg r

/-- The memory frame of all eleven instructions (20_memory.md R67, R51): every cell reads as before, but the cell at
an SW's effective address, which reads as the data register did. -/
def Obligations.OnlyStoredCellChanges : Prop :=
  ∀ i s t, Memory.wf s.mem → exec i s = .next t →
    (∀ a, storedCell i s ≠ some a → Memory.read t.mem a = Memory.read s.mem a) ∧
    ∀ rt offset rs a, i = .sw rt offset rs → storedCell i s = some a → Memory.read t.mem a = s.reg rt

/-- The frame of the control state and the cache lines: what each instruction may change beside registers, memory
and `pc`. An access outside `[0, 256)` sets `status` and `fault_addr` and keeps `pc`; every other instruction keeps
`status` and `fault_addr`. That the parameters stand in the state is the model's choice (log entry 1). -/
def Obligations.ControlStateFrame : Prop :=
  ∀ i s t, exec i s = .next t →
    t.cfg = s.cfg ∧ t.program = s.program ∧
    (t.running = if i = .halt then false else s.running) ∧
    (t.enabled = if i = .cache 0 then false else if i = .cache 1 then true else s.enabled) ∧
    (∀ ea, dataAddress i s = some ea → ¬ (0 ≤ ea ∧ ea < 256) →
      t.status = .addressOutOfRange ∧ t.faultAddr = ea ∧ t.pc = s.pc) ∧
    ((∀ ea, dataAddress i s = some ea → 0 ≤ ea ∧ ea < 256) →
      t.status = s.status ∧ t.faultAddr = s.faultAddr) ∧
    ∀ a, i ≠ .cache 2 → accessedCell i s ≠ some a → Cache.get t.cache a = Cache.get s.cache a

/-! ### Memory, cache and word operations -/

/-- MemWrite and MemRead (20_memory.md R50, R51). -/
def Obligations.MemoryWriteIsTotalReplace : Prop :=
  ∀ (m : Memory) a v b, Memory.wf m →
    Memory.read (Memory.write m a v) b = if b = a then v else Memory.read m b

/-- Two canonical memories that read alike are equal data: the model's representation choice (log entry 7) hides
no cell and invents none. -/
def Obligations.CanonicalMemoriesReadingAlikeAreEqual : Prop :=
  ∀ m₁ m₂ : Memory, Memory.wf m₁ → Memory.wf m₂ → (∀ a, Memory.read m₁ a = Memory.read m₂ a) → m₁ = m₂

/-- CacheFill, CacheSet and CacheFlush (20_memory.md R56, R57, R58), through CacheGet (R55). -/
def Obligations.CacheOperationsActOnTheirLines : Prop :=
  (∀ (c : Cache) a v b, Cache.get (Cache.fill c a v) b = if b = a then some v else Cache.get c b) ∧
  ∀ (s : State) a v,
    s.cacheSet a v = { s with cache := if s.enabled then Cache.fill s.cache a v else s.cache } ∧
    s.cacheFill a v = { s with cache := Cache.fill s.cache a v } ∧
    (∃ c, s.cacheFlush = { s with cache := c } ∧ ∀ b, Cache.get c b = none)

/-- `wrap` (00_scope.md R9): the one pattern of the engine's width that is congruent to the integer. -/
def Obligations.WrapIsTheCongruentPattern : Prop :=
  ∀ (c : Config) n, fits c (wrap c n) ∧ (2 ^ c.xlen : Int) ∣ wrap c n - n ∧
    ∀ v, fits c v → (2 ^ c.xlen : Int) ∣ v - n → v = wrap c n

/-- The link value (42_control.md R167): `wrap` never changes it. -/
def Obligations.LinkValueNeedsNoWrap : Prop :=
  ∀ s i, s.Inv → AboutToRun s i → wrap s.cfg (s.pc + 1) = s.pc + 1

/-! ### The step and the run loop -/

/-- A step runs the decoded instruction (40_execution_cycle.md R112): `exec` holds the handler and the generic
increment, and the step adds nothing around it. -/
def Obligations.StepRunsDecodedInstruction : Prop :=
  ∀ s i, AboutToRun s i → step s = exec i s

/-- The stop checks and their order (40_execution_cycle.md R121, R122, R123). -/
def Obligations.LoopChecksBeforeAStep : Prop :=
  ∀ s, s.status = .running →
    (s.running = false → step s = .next { s with status := .halted }) ∧
    (s.running = true → s.progLen ≤ s.pc → step s = .next { s with status := .exhausted }) ∧
    (s.running = true → s.pc < s.progLen → s.pc < 0 → step s = .next { s with status := .pcOutOfRange })

/-- A record that does not decode (60_exceptions.md R222, R223, R226): the status, and nothing else. -/
def Obligations.DecodeFaultWritesOnlyStatus : Prop :=
  ∀ s, Executing s → 0 ≤ s.pc → s.pc < s.progLen →
    (decodeRecord (s.recordAt s.pc) = .error .unknownInstruction →
      step s = .next { s with status := .unknownInstruction }) ∧
    (decodeRecord (s.recordAt s.pc) = .error .malformedInstruction →
      step s = .next { s with status := .malformedInstruction })

/-- Faults are precise (60_exceptions.md R226): whatever step of a run leaves a fault status changed nothing but the
status and, for AddressOutOfRange, the fault-address register, which holds the effective address; and the status
is that of the fault the step raised. -/
def Obligations.FaultsArePrecise : Prop :=
  ∀ s t, s.status = .running → step s = .next t → t.status.isFault = true →
    t = { s with status := t.status, faultAddr := t.faultAddr } ∧
    (t.status ≠ .addressOutOfRange → t.faultAddr = s.faultAddr) ∧
    (t.status = .addressOutOfRange →
      ∃ i ea, AboutToRun s i ∧ dataAddress i s = some ea ∧ ¬ (0 ≤ ea ∧ ea < 256) ∧ t.faultAddr = ea) ∧
    (t.status = .pcOutOfRange → s.pc < 0) ∧
    (t.status = .unknownInstruction →
      0 ≤ s.pc ∧ s.pc < s.progLen ∧ decodeRecord (s.recordAt s.pc) = .error .unknownInstruction) ∧
    (t.status = .malformedInstruction →
      0 ≤ s.pc ∧ s.pc < s.progLen ∧ decodeRecord (s.recordAt s.pc) = .error .malformedInstruction)

/-- The generic increment (40_execution_cycle.md R113): a step that executes an instruction without a fault ends with
`pc + 1`, on top of what BNE, J or JAL wrote and after HALT too; a step that faults does not increment. -/
def Obligations.GenericIncrementEndsEveryStep : Prop :=
  ∀ s t, s.status = .running → step s = .next t →
    (t.status = .running → ∃ i, AboutToRun s i ∧ t.pc = nextPc i s) ∧
    (t.status.isFault = true → t.pc = s.pc)

/-- A stopped engine does nothing (60_exceptions.md R236): every piece of state survives. That the step then answers
the same state is the model's choice (log entry 5). -/
def Obligations.StoppedEngineStaysAsItIs : Prop :=
  ∀ s, s.status ≠ .running → step s = .next s

/-- No state stops the model: the step always answers a next state, and so does every instruction. That a fault of the
spec is a next state is the model's choice (log entry 4). -/
def Obligations.EveryStepAnswersANextState : Prop :=
  (∀ s, ∃ t, step s = .next t) ∧ ∀ i s, ∃ t, exec i s = .next t

/-- No step changes the instruction store or the engine's parameters (20_memory.md R71, 00_scope.md R7). -/
def Obligations.StepsNeverChangeTheProgram : Prop :=
  ∀ s t, step s = .next t → t.program = s.program ∧ t.cfg = s.cfg

/-- Only HALT clears the running flag (10_state.md R26). -/
def Obligations.OnlyHaltClearsRunning : Prop :=
  ∀ s t, step s = .next t → t.running ≠ s.running → AboutToRun s .halt ∧ t.running = false

/-- The straight-line run (40_execution_cycle.md R126): a run of a program of length `N` in which no HALT executes, no
step faults, and every instruction executed continues at the next index, so a BNE that is not taken is allowed,
performs `N` steps and stops with EXHAUSTED and `pc = N`. -/
def Obligations.StraightLineRunExhausts : Prop :=
  ∀ s N, Executing s → s.pc = 0 → s.program.length = N →
    (∀ k a i, k < N → Host.Core.run Sys2Proof.core k s = .next a → AboutToRun a i →
      i ≠ .halt ∧ nextPc i a = a.pc + 1) →
    (∀ k t, k ≤ N → Host.Core.run Sys2Proof.core k s = .next t → t.status = .running) →
    ∃ t, Host.Core.run Sys2Proof.core N s = .next t ∧ t.pc = N ∧ t.running = true ∧
      Host.Core.run Sys2Proof.core (N + 1) s = .next { t with status := .exhausted }

/-! ### Invariants -/

/-- The state after power-on reset, for every engine (10_state.md R37, 70_reset_and_hazards.md R250). The run start,
the only other reset, leaves the registers. -/
def Obligations.PowerOnResetState : Prop :=
  ∀ c, (∀ r, (State.resetWith c).reg r = 0) ∧ (∀ a, Memory.read (State.resetWith c).mem a = 0) ∧
    (∀ a, Cache.get (State.resetWith c).cache a = none) ∧
    (State.resetWith c).enabled = c.cacheEnabledAtReset ∧ (State.resetWith c).pc = 0 ∧
    (State.resetWith c).running = true ∧ (State.resetWith c).status = .ready ∧
    (State.resetWith c).faultAddr = 0 ∧ (State.resetWith c).program = [] ∧
    ∀ s : State, s.runStart.regs = s.regs

/-- The state after power-on reset meets every invariant stated here, for every engine, the one of `State.reset`
among them. -/
def Obligations.ResetMeetsTheInvariants : Prop :=
  (∃ c, State.reset = State.resetWith c) ∧
  ∀ c, (State.resetWith c).Inv ∧ Coherent (State.resetWith c) ∧ PcReachable (State.resetWith c) ∧
    StopsTellRunning (State.resetWith c)

/-- Every step keeps the representation invariant: canonical memory and cache, every value a pattern of the engine's
width. -/
def Obligations.StepKeepsInvariant : Prop :=
  ∀ s t, s.Inv → step s = .next t → t.Inv

/-- Every host operation keeps the representation invariant. -/
def Obligations.HostOperationsKeepInvariant : Prop :=
  ∀ c s t, s.Inv → hostApply c s = .ok t → t.Inv

/-- Every step keeps `pc` within the values of 10_state.md R25. -/
def Obligations.ProgramCounterStaysReachable : Prop :=
  ∀ s t, s.program.length ≤ lMax → PcReachable s → step s = .next t → PcReachable t

/-- `running` is false after HALTED and true after EXHAUSTED (40_execution_cycle.md R124): every step keeps it so. -/
def Obligations.RunningFlagTellsTheStopsApart : Prop :=
  ∀ s t, StopsTellRunning s → step s = .next t → StopsTellRunning t

/-- Which instructions keep coherence (20_memory.md R62): all but a store of another value under a disabled cache to a
valid line, and that one breaks it. -/
def Obligations.OnlyDisabledStoresBreakCoherence : Prop :=
  ∀ i s t, s.Inv → Coherent s → exec i s = .next t → (Coherent t ↔ ¬ DisabledStaleStore i s)

/-- Which host operations keep coherence (20_memory.md R62): all but a run start that clears the memory and not the
cache, and that one breaks it exactly where a valid line holds a value other than zero. -/
def Obligations.OnlyHalfResettingRunStartBreaksCoherence : Prop :=
  ∀ c s t, s.Inv → Coherent s → hostApply c s = .ok t →
    (Coherent t ↔
      ¬ (c = .runStart ∧ s.cfg.runResetsMemory = true ∧ s.cfg.runResetsCache = false ∧
          ∃ a v, Cache.get s.cache a = some v ∧ v ≠ 0))

/-- A valid line keeps its value (20_memory.md R63): through every step but a CACHE 2 and an SW to its address under
an enabled cache. A stale entry is therefore what every later LW of it returns. -/
def Obligations.ValidLinePersists : Prop :=
  ∀ s t a v, Cache.get s.cache a = some v → step s = .next t →
    Cache.get t.cache a = some v ∨ AboutToRun s (.cache 2) ∨
      ∃ rt offset rs, AboutToRun s (.sw rt offset rs) ∧ s.enabled = true ∧
        storedCell (.sw rt offset rs) s = some a

/-- While `Coh` holds the cache has no effect on any register or memory value (20_memory.md R64): two coherent states
that differ in the cache alone still do after any instruction. -/
def Obligations.CoherentCacheIsInvisible : Prop :=
  ∀ i s u t v, AgreeButCache s u → Coherent s → Coherent u → exec i s = .next t → exec i u = .next v →
    AgreeButCache t v

/-- The store then load of 43_load_store.md R187: with the cache enabled, an LW of the address just stored to returns
the value written, and cache and memory agree there. -/
def Obligations.LoadAfterEnabledStoreReturnsTheValue : Prop :=
  ∀ rt offset rs s t, s.Inv → s.enabled = true → storedCell (.sw rt offset rs) s ≠ none →
    exec (.sw rt offset rs) s = .next t →
    ∀ rd offset' rs' u, effectiveAddress t rs' offset' = effectiveAddress s rs offset →
      exec (.lw rd offset' rs') t = .next u → u.reg rd = s.reg rt ∧
        Cache.get t.cache (effectiveAddress s rs offset).toNat = some (s.reg rt) ∧
        Memory.read t.mem (effectiveAddress s rs offset).toNat = s.reg rt

/-- CACHE 2 and the load after it (44_system.md R202): the cache is emptied whatever `enabled` holds, the LW reads the
MemoryBus whatever the cache held, and its line is filled again only if the cache is enabled. -/
def Obligations.LoadAfterFlushReadsMemory : Prop :=
  decodeWord 0x90000002 = .ok (.cache 2) ∧
  ∀ s t, exec (.cache 2) s = .next t →
    (∀ a, Cache.get t.cache a = none) ∧ t.enabled = s.enabled ∧
    ∀ u rt offset rs a, accessedCell (.lw rt offset rs) t = some a → exec (.lw rt offset rs) t = .next u →
      u.reg rt = Memory.read s.mem a ∧ u.mem = s.mem ∧
        ∀ b, Cache.get u.cache b = if b = a ∧ s.enabled = true then some (Memory.read s.mem a) else none

/-- The width of the engine shows only where a result leaves it (41_alu.md R144): a run in which no exact result leaves
the range of either engine is the same run on both, whatever their parameters. -/
def Obligations.RunIsIndependentOfSufficientWidth : Prop :=
  ∀ n s u t, AgreeButParameters s u →
    (∀ k a i r, k < n → Host.Core.run Sys2Proof.core k s = .next a → AboutToRun a i →
      exactResult i a = some r → fits s.cfg r ∧ fits u.cfg r) →
    Host.Core.run Sys2Proof.core n s = .next t →
    Host.Core.run Sys2Proof.core n u = .next { t with cfg := u.cfg }

/-! ### Encoding -/

/-- The fields of a packed word (30_encoding.md R88, R90). -/
def Obligations.FieldsReadTheirBits : Prop :=
  ∀ w : PackedWord, (tagField w).toNat = w.toNat / 2 ^ 28 ∧ (fieldA w).val = w.toNat / 2 ^ 25 % 8 ∧
    (fieldB w).val = w.toNat / 2 ^ 22 % 8 ∧ (fieldC w).val = w.toNat / 2 ^ 19 % 8 ∧
    litField w = if w.toNat % 65536 < 32768 then (w.toNat % 65536 : Int) else (w.toNat % 65536 : Int) - 65536

/-- A few words written out from the spec's encodings (30_encoding.md R88; 95_test_vectors.md section 2). -/
def Obligations.WrittenOutWordsDecode : Prop :=
  decodeWord 0x02980000 = .ok (.add 1 2 3) ∧ decodeWord 0x12808000 = .ok (.addi 1 2 (-32768)) ∧
  decodeWord 0x4200FFFD = .ok (.bne 1 0 (-3)) ∧ decodeWord 0x60000014 = .ok (.jal 20) ∧
  decodeWord 0x7200FFFF = .ok (.lw 1 (-1) 0) ∧ decodeWord 0x84400037 = .ok (.sw 2 55 1) ∧
  decodeWord 0x90000002 = .ok (.cache 2) ∧ decodeWord 0xA0000000 = .ok .halt

/-- Every well-formed instruction is read back from its packed word (30_encoding.md R93). -/
def Obligations.DecodeInvertsEncode : Prop :=
  ∀ i, i.wellFormed = true → decodeWord (encode i) = .ok i

/-- A word that decodes is the packed word of what it decodes to, which is well-formed: no two words name one
instruction, and no bit of a word is dropped. -/
def Obligations.EncodeInvertsDecode : Prop :=
  ∀ w i, decodeWord w = .ok i → encode i = w ∧ i.wellFormed = true

/-- The decode faults of a packed word (30_encoding.md R93, R99): which words raise which. -/
def Obligations.WordFaultsByTagThenReservedBits : Prop :=
  ∀ w : PackedWord,
    (decodeWord w = .error .unknownInstruction ↔ 11 ≤ w.toNat / 2 ^ 28) ∧
    (decodeWord w = .error .malformedInstruction ↔
      w.toNat / 2 ^ 28 < 11 ∧ ∀ row ∈ opcodeTable, w &&& row.mask ≠ row.pattern)

/-- Every well-formed instruction is read back from its assembler line, with any white space around it
(30_encoding.md R85, R92). White space is spaces and tabs: the model's reading (log entry 9). -/
def Obligations.TextDecodeInvertsSpelling : Prop :=
  ∀ i, i.wellFormed = true → ∀ before after, before.all isWs = true → after.all isWs = true →
    decodeText (before ++ spell i ++ after) = .ok i

/-- The two record forms name the same instructions (30_encoding.md R80): what a line decodes to is well-formed, so
some packed word decodes to it, and conversely. -/
def Obligations.TextAndWordNameTheSameInstructions : Prop :=
  ∀ i, (∃ line, decodeText line = .ok i) ↔ ∃ w, decodeWord w = .ok i

/-- A register token names the register of its decimal value, leading zeros and all, and a value of 8 or more is
malformed (30_encoding.md R86, R95): in every register position of every format, any digits in all of them at once. -/
def Obligations.RegisterTokenNamesItsDecimalValue : Prop :=
  ∀ da db dc n, DigitRun da → DigitRun db → DigitRun dc → -32768 ≤ n ∧ n ≤ 32767 →
    (∀ p ∈ [(Op.add, Instr.add), (Op.sub, Instr.sub), (Op.slt, Instr.slt)],
      (∀ ha hb hc, decodeText (spellLine p.1 ['R' :: da, 'R' :: db, 'R' :: dc]) =
        .ok (p.2 ⟨digitsValue da, ha⟩ ⟨digitsValue db, hb⟩ ⟨digitsValue dc, hc⟩)) ∧
      (8 ≤ digitsValue da ∨ 8 ≤ digitsValue db ∨ 8 ≤ digitsValue dc →
        decodeText (spellLine p.1 ['R' :: da, 'R' :: db, 'R' :: dc]) = .error .malformedInstruction)) ∧
    (∀ p ∈ [(Op.addi, Instr.addi), (Op.bne, Instr.bne)],
      (∀ ha hb, decodeText (spellLine p.1 ['R' :: da, 'R' :: db, spellInt n]) =
        .ok (p.2 ⟨digitsValue da, ha⟩ ⟨digitsValue db, hb⟩ n)) ∧
      (8 ≤ digitsValue da ∨ 8 ≤ digitsValue db →
        decodeText (spellLine p.1 ['R' :: da, 'R' :: db, spellInt n]) = .error .malformedInstruction)) ∧
    ∀ p ∈ [(Op.lw, Instr.lw), (Op.sw, Instr.sw)],
      (∀ ha hb, decodeText (spellLine p.1 ['R' :: da, spellInt n ++ '(' :: 'R' :: (db ++ [')'])]) =
        .ok (p.2 ⟨digitsValue da, ha⟩ n ⟨digitsValue db, hb⟩)) ∧
      (8 ≤ digitsValue da ∨ 8 ≤ digitsValue db →
        decodeText (spellLine p.1 ['R' :: da, spellInt n ++ '(' :: 'R' :: (db ++ [')'])]) =
          .error .malformedInstruction)

/-- A literal token names its decimal value with its sign, and a value outside 16 signed bits is malformed
(30_encoding.md R87, R96): unsigned, with `+` and with `-`, leading zeros and all, for every instruction that takes a
literal. -/
def Obligations.LiteralTokenNamesItsSignedValue : Prop :=
  ∀ ds, DigitRun ds → ∀ a b : Reg,
    ∀ tok ∈ [(ds, (digitsValue ds : Int)), ('+' :: ds, (digitsValue ds : Int)), ('-' :: ds, -(digitsValue ds : Int))],
      (∀ p ∈ [(Op.j, Instr.j), (Op.jal, Instr.jal), (Op.cache, Instr.cache)],
        decodeText (spellLine p.1 [tok.1]) = inLiteralRange tok.2 (p.2 tok.2)) ∧
      (∀ p ∈ [(Op.addi, Instr.addi), (Op.bne, Instr.bne)],
        decodeText (spellLine p.1 [spellReg a, spellReg b, tok.1]) = inLiteralRange tok.2 (p.2 a b tok.2)) ∧
      ∀ p ∈ [(Op.lw, Instr.lw), (Op.sw, Instr.sw)],
        decodeText (spellLine p.1 [spellReg a, tok.1 ++ '(' :: (spellReg b ++ [')'])]) =
          inLiteralRange tok.2 (p.2 a tok.2 b)

/-- An empty or all-white-space record is malformed when fetched; it is not skipped (30_encoding.md R97). White space
is spaces and tabs: the model's reading (log entry 9). -/
def Obligations.BlankRecordIsMalformedWhenFetched : Prop :=
  ∀ s line, Executing s → 0 ≤ s.pc → s.pc < s.progLen → s.recordAt s.pc = .text line →
    line.toList.all isWs = true → step s = .next { s with status := .malformedInstruction }

/-- A line that starts with an unknown mnemonic is UnknownInstruction whatever its operands (30_encoding.md R92,
60_exceptions.md R227). That the mnemonic ends at white space or a comma is the model's reading (log entry 10). -/
def Obligations.UnknownMnemonicIsJudgedFirst : Prop :=
  ∀ m rest, m ≠ [] → m.all inMnemonic = true → (∀ op ∈ Op.all, op.mnemonic.toList ≠ m) →
    (∀ c, rest.head? = some c → inMnemonic c = false) →
    decodeText (m ++ rest) = .error .unknownInstruction

/-! ### The host interface -/

/-- The run start (70_reset_and_hazards.md R251), which every run performs before its first step, and its refusal
while a run is in progress. The empty memory reads zero everywhere, and the empty cache has no valid line. -/
def Obligations.RunStartResetsPcAndRunning : Prop :=
  (∀ a, Memory.read [] a = 0) ∧ (∀ a, Cache.get [] a = none) ∧
  ∀ s,
    (∀ n t, hostRunStart s = .ok t → hostRun n s = .ok (runLoop n t)) ∧
    (s.status = .running → hostRunStart s = .error .busy) ∧
    (s.status ≠ .running → hostRunStart s = .ok { s with
      pc := 0
      running := true
      status := .running
      faultAddr := 0
      mem := if s.cfg.runResetsMemory then [] else s.mem
      cache := if s.cfg.runResetsCache then [] else s.cache })

/-- The initialisation feed (40_execution_cycle.md R131): rejected whole, or every address it names holds the last
value given for it, in the MemoryBus and in the cache, whatever `enabled` holds. Which error names a feed that holds
both a bad address and a bad value is not stated (log entry 12). -/
def Obligations.InitialisationFeedWritesMemoryAndCache : Prop :=
  ∀ pairs s, s.Inv → s.status ≠ .running →
    ((∃ p ∈ pairs, ¬ (0 ≤ p.1 ∧ p.1 < 256)) → ∃ e, hostInit pairs s = .error e ∧
      ((∀ p ∈ pairs, fits s.cfg p.2) → e = .addressOutOfRange)) ∧
    ((∃ p ∈ pairs, ¬ fits s.cfg p.2) → ∃ e, hostInit pairs s = .error e ∧
      ((∀ p ∈ pairs, 0 ≤ p.1 ∧ p.1 < 256) → e = .initValueOutOfRange)) ∧
    ((∀ p ∈ pairs, 0 ≤ p.1 ∧ p.1 < 256) → (∀ p ∈ pairs, fits s.cfg p.2) →
      ∃ m c, hostInit pairs s = .ok { s with mem := m, cache := c } ∧
        (∀ a, Memory.read m a = (lastInit pairs a).getD (Memory.read s.mem a)) ∧
        ∀ a, Cache.get c a = (lastInit pairs a).orElse (fun _ => Cache.get s.cache a))

/-- The program feed (40_execution_cycle.md R132). -/
def Obligations.ProgramFeedReplacesTheStore : Prop :=
  ∀ records s, s.status ≠ .running →
    (32767 < records.length → hostLoad records s = .error .programTooLong) ∧
    (records.length ≤ 32767 → ∃ t, hostLoad records s = .ok t ∧ t = { s with program := records } ∧
      t.progLen = records.length)

/-- The snapshot (40_execution_cycle.md R134): the eight registers, and all non-zero cells of the MemoryBus in ascending
address order, never the cache. -/
def Obligations.SnapshotShowsRegistersAndNonZeroCells : Prop :=
  ∀ s, s.Inv →
    (∀ r : Reg, s.snapshot.registers[r.val]? = some (s.reg r)) ∧ s.snapshot.registers.length = 8 ∧
    (∀ a v, (a, v) ∈ s.snapshot.memory ↔ a < 256 ∧ v = Memory.read s.mem a ∧ v ≠ 0) ∧
    s.snapshot.memory.Pairwise (fun p q => p.1 < q.1) ∧
    s.snapshot.status = s.status ∧ s.snapshot.running = s.running ∧ s.snapshot.pc = s.pc ∧
    s.snapshot.faultAddr = s.faultAddr ∧
    (s.status ≠ .running → hostSnapshot s = .ok s.snapshot)

/-- A run's result does not depend on its step budget, and an exhausted budget is no stop (40_execution_cycle.md R125). -/
def Obligations.MoreFuelNeverChangesAStop : Prop :=
  ∀ n m s stop t, n ≤ m → hostRun n s = .ok (.stopped stop t) → hostRun m s = .ok (.stopped stop t)

/-- A run ends only at a stop (40_execution_cycle.md R137): its final status is HALTED, EXHAUSTED or a fault, and what
it returns names that stop with the failing position. -/
def Obligations.RunEndsOnlyAtAStop : Prop :=
  ∀ n s stop t, hostRun n s = .ok (.stopped stop t) →
    (t.status = .halted ∧ stop = .halted) ∨ (t.status = .exhausted ∧ stop = .exhausted) ∨
    (t.status.isFault = true ∧ ∃ k, stop = .fault k t.pc ∧ k.status = t.status ∧
      (∀ ea, k = .addressOutOfRange ea → ea = t.faultAddr))
end

