-- ==== Sys2Proof/Laws/Cells.lean ====
section
/-! SUPPORT. Values by address: reading after writing, and the canonical form that every memory and cache operation keeps. -/

namespace Sys2Proof.Machine

/-! ### Lookups -/

@[simp] theorem Cells.lookup_nil (a : Nat) : Cells.lookup a [] = none := rfl

theorem Cells.lookup_cons (a b : Nat) (v : Word) (cs : Cells) :
    Cells.lookup a ((b, v) :: cs) = if a = b then some v else Cells.lookup a cs := rfl

/-- What is found for an address stands in the list. -/
theorem Cells.mem_of_lookup {a : Nat} {v : Word} {cs : Cells} (h : Cells.lookup a cs = some v) : (a, v) ∈ cs := by
  induction cs with
  | nil => simp at h
  | cons p cs ih =>
    obtain ⟨b, w⟩ := p
    rw [Cells.lookup_cons] at h
    split at h
    · next hab => cases h; simp [hab]
    · exact List.mem_cons_of_mem _ (ih h)

/-- An address below every listed one is not listed. -/
theorem Cells.lookup_eq_none_of_lt {a : Nat} {cs : Cells} (h : ∀ p ∈ cs, a < p.1) : Cells.lookup a cs = none := by
  cases hl : Cells.lookup a cs with
  | none => rfl
  | some v => exact absurd (h _ (Cells.mem_of_lookup hl)) (by simp)

/-- In a rising list every entry is found under its address. -/
theorem Cells.lookup_of_mem {a : Nat} {v : Word} {cs : Cells}
    (hr : cs.Pairwise (fun p q => p.1 < q.1)) (h : (a, v) ∈ cs) : Cells.lookup a cs = some v := by
  induction cs with
  | nil => simp at h
  | cons p cs ih =>
    obtain ⟨b, w⟩ := p
    rw [List.pairwise_cons] at hr
    rw [Cells.lookup_cons]
    rcases List.mem_cons.1 h with h | h
    · cases h; simp
    · have hlt := hr.1 _ h
      rw [if_neg (by simp at hlt; omega)]
      exact ih hr.2 h

/-- After an insertion the address has the new value and every other address what it had. -/
theorem Cells.lookup_insert (a b : Nat) (v : Word) (cs : Cells) :
    Cells.lookup b (Cells.insert a v cs) = if b = a then some v else Cells.lookup b cs := by
  induction cs with
  | nil => simp [Cells.insert, Cells.lookup_cons]
  | cons p cs ih =>
    obtain ⟨c, w⟩ := p
    unfold Cells.insert
    by_cases h1 : a < c
    · simp [h1, Cells.lookup_cons]
    · by_cases h2 : a = c
      · subst h2
        by_cases h3 : b = a <;> simp [Cells.lookup_cons, h3]
      · simp only [h1, h2, if_false, Cells.lookup_cons, ih]
        by_cases h3 : b = c
        · subst h3; simp [Ne.symm h2]
        · simp [h3]

/-- After an erasure a rising list has nothing for the address and every other address what it had. -/
theorem Cells.lookup_erase (a b : Nat) {cs : Cells} (hr : cs.Pairwise (fun p q => p.1 < q.1)) :
    Cells.lookup b (Cells.erase a cs) = if b = a then none else Cells.lookup b cs := by
  induction cs with
  | nil => simp [Cells.erase]
  | cons p cs ih =>
    obtain ⟨c, w⟩ := p
    rw [List.pairwise_cons] at hr
    unfold Cells.erase
    by_cases h1 : a = c
    · subst h1
      by_cases h2 : b = a
      · subst h2; simp [Cells.lookup_eq_none_of_lt (cs := cs) (a := b) (fun p hp => hr.1 p hp)]
      · simp [Cells.lookup_cons, h2]
    · simp only [h1, if_false, Cells.lookup_cons, ih hr.2]
      by_cases h2 : b = c
      · subst h2; simp [Ne.symm h1]
      · simp [h2]

/-! ### What is listed -/

/-- An insertion lists the new entry, and no other entry that was not listed. -/
theorem Cells.mem_insert {a : Nat} {v : Word} {cs : Cells} {p : Nat × Word} (h : p ∈ Cells.insert a v cs) :
    p = (a, v) ∨ p ∈ cs := by
  induction cs with
  | nil => simpa [Cells.insert] using h
  | cons q cs ih =>
    obtain ⟨c, w⟩ := q
    unfold Cells.insert at h
    split at h
    · simpa using h
    · split at h
      · rcases List.mem_cons.1 h with h | h
        · exact .inl h
        · exact .inr (List.mem_cons_of_mem _ h)
      · rcases List.mem_cons.1 h with h | h
        · exact .inr (by simp [h])
        · rcases ih h with h | h
          · exact .inl h
          · exact .inr (List.mem_cons_of_mem _ h)

/-- An erasure lists no entry that was not listed. -/
theorem Cells.mem_erase {a : Nat} {cs : Cells} {p : Nat × Word} (h : p ∈ Cells.erase a cs) : p ∈ cs := by
  induction cs with
  | nil => simp [Cells.erase] at h
  | cons q cs ih =>
    obtain ⟨c, w⟩ := q
    unfold Cells.erase at h
    split at h
    · exact List.mem_cons_of_mem _ h
    · rcases List.mem_cons.1 h with h | h
      · simp [h]
      · exact List.mem_cons_of_mem _ (ih h)

/-! ### The canonical form -/

theorem Cells.insert_rising {a : Nat} {v : Word} {cs : Cells} (hr : cs.Pairwise (fun p q => p.1 < q.1)) :
    (Cells.insert a v cs).Pairwise (fun p q => p.1 < q.1) := by
  induction cs with
  | nil => simp [Cells.insert]
  | cons q cs ih =>
    obtain ⟨c, w⟩ := q
    have hr' := List.pairwise_cons.1 hr
    unfold Cells.insert
    split
    · next h =>
      refine List.pairwise_cons.2 ⟨fun p hp => ?_, hr⟩
      rcases List.mem_cons.1 hp with hp | hp
      · simpa [hp] using h
      · exact lt_trans h (hr'.1 p hp)
    · split
      · next _ h => subst h; exact List.pairwise_cons.2 hr'
      · next h1 h2 =>
        refine List.pairwise_cons.2 ⟨fun p hp => ?_, ih hr'.2⟩
        rcases Cells.mem_insert hp with hp | hp
        · simp only [hp]; omega
        · exact hr'.1 p hp

theorem Cells.erase_rising {a : Nat} {cs : Cells} (hr : cs.Pairwise (fun p q => p.1 < q.1)) :
    (Cells.erase a cs).Pairwise (fun p q => p.1 < q.1) := by
  induction cs with
  | nil => simp [Cells.erase]
  | cons q cs ih =>
    obtain ⟨c, w⟩ := q
    have hr' := List.pairwise_cons.1 hr
    unfold Cells.erase
    split
    · exact hr'.2
    · exact List.pairwise_cons.2 ⟨fun p hp => hr'.1 p (Cells.mem_erase hp), ih hr'.2⟩

theorem Cells.insert_wf {a : Nat} {v : Word} {cs : Cells} (h : Cells.wf cs) (ha : a < memCells) :
    Cells.wf (Cells.insert a v cs) := by
  refine ⟨Cells.insert_rising h.1, fun p hp => ?_⟩
  rcases Cells.mem_insert hp with hp | hp
  · simpa [hp] using ha
  · exact h.2 p hp

theorem Cells.erase_wf {a : Nat} {cs : Cells} (h : Cells.wf cs) : Cells.wf (Cells.erase a cs) :=
  ⟨Cells.erase_rising h.1, fun p hp => h.2 p (Cells.mem_erase hp)⟩

/-! ### The MemoryBus -/

@[simp] theorem Memory.read_nil (a : Nat) : Memory.read [] a = 0 := rfl

/-- What a write lists is the written entry or was listed before. -/
theorem Memory.mem_write {m : Memory} {a : Nat} {v : Word} {p : Nat × Word} (h : p ∈ Memory.write m a v) :
    p = (a, v) ∨ p ∈ m := by
  unfold Memory.write at h
  split at h
  · exact .inr (Cells.mem_erase h)
  · exact Cells.mem_insert h

/-- A write keeps the canonical form. -/
theorem Memory.write_wf {m : Memory} (h : Memory.wf m) {a : Nat} (v : Word) (ha : a < memCells) :
    Memory.wf (Memory.write m a v) := by
  unfold Memory.write
  split
  · exact ⟨Cells.erase_wf h.1, fun p hp => h.2 p (Cells.mem_erase hp)⟩
  · next hv =>
    refine ⟨Cells.insert_wf h.1 ha, fun p hp => ?_⟩
    rcases Cells.mem_insert hp with hp | hp
    · simpa [hp] using hv
    · exact h.2 p hp

@[simp] theorem Memory.nil_wf : Memory.wf [] := by simp [Memory.wf, Cells.wf]

/-! ### The cache -/

@[simp] theorem Cache.get_nil (a : Nat) : Cache.get [] a = none := rfl

@[simp] theorem Cache.get_flushed (a : Nat) : Cache.get Cache.flushed a = none := rfl

/-- After a fill the line holds the value and every other line is as it was. -/
theorem Cache.get_fill (c : Cache) (a b : Nat) (v : Word) :
    Cache.get (Cache.fill c a v) b = if b = a then some v else Cache.get c b :=
  Cells.lookup_insert a b v c

/-- A fill keeps the canonical form. -/
theorem Cache.fill_wf {c : Cache} (h : Cache.wf c) {a : Nat} (v : Word) (ha : a < memCells) :
    Cache.wf (Cache.fill c a v) :=
  Cells.insert_wf h ha

@[simp] theorem Cache.flushed_wf : Cache.wf Cache.flushed := ⟨List.Pairwise.nil, by simp [Cache.flushed]⟩

end Sys2Proof.Machine
end

