-- ==== Sys2Proof/Laws/Decode.lean ====
section
/-! SUPPORT. The small lemmas of the decoder and the encoder. -/

namespace Sys2Proof

/-! ### Tags and fields -/

@[simp] theorem Op.ofTag_tag (op : Op) : Op.ofTag op.tag = some op := by cases op <;> decide

/-- The opcode a tag names has that tag. -/
theorem Op.tag_of_ofTag {t : BitVec 4} {op : Op} (h : Op.ofTag t = some op) : op.tag = t := by
  simpa using List.find?_some h

@[simp] theorem Op.op_instrOfFields (op : Op) (a b c : Reg) (lit : Int) :
    (op.instrOfFields a b c lit).op = op := by cases op <;> rfl

@[simp] theorem tagField_packFields (op : Op) (a b c : BitVec 3) (lit : BitVec 16) :
    tagField (packFields op a b c lit) = op.tag := by
  apply BitVec.eq_of_getLsbD_eq
  intro k hk
  have h : k < 4 := hk
  simp only [tagField, packFields, BitVec.getLsbD_extractLsb', BitVec.getLsbD_append]
  interval_cases k <;> simp

@[simp] theorem fieldA_packFields (op : Op) (a b c : BitVec 3) (lit : BitVec 16) :
    fieldA (packFields op a b c lit) = a.toFin := by
  unfold fieldA
  congr 1
  apply BitVec.eq_of_getLsbD_eq
  intro k hk
  simp only [packFields, BitVec.getLsbD_extractLsb', BitVec.getLsbD_append]
  interval_cases k <;> simp

@[simp] theorem fieldB_packFields (op : Op) (a b c : BitVec 3) (lit : BitVec 16) :
    fieldB (packFields op a b c lit) = b.toFin := by
  unfold fieldB
  congr 1
  apply BitVec.eq_of_getLsbD_eq
  intro k hk
  simp only [packFields, BitVec.getLsbD_extractLsb', BitVec.getLsbD_append]
  interval_cases k <;> simp

@[simp] theorem fieldC_packFields (op : Op) (a b c : BitVec 3) (lit : BitVec 16) :
    fieldC (packFields op a b c lit) = c.toFin := by
  unfold fieldC
  congr 1
  apply BitVec.eq_of_getLsbD_eq
  intro k hk
  simp only [packFields, BitVec.getLsbD_extractLsb', BitVec.getLsbD_append]
  interval_cases k <;> simp

@[simp] theorem litField_packFields (op : Op) (a b c : BitVec 3) (lit : BitVec 16) :
    litField (packFields op a b c lit) = lit.toInt := by
  unfold litField
  congr 1
  apply BitVec.eq_of_getLsbD_eq
  intro k hk
  simp only [packFields, BitVec.getLsbD_extractLsb', BitVec.getLsbD_append]
  simp [hk]

@[simp] theorem toFin_regBits (r : Reg) : (regBits r).toFin = r := by revert r; decide

/-- A literal in range is what its 16 bits read as. -/
theorem toInt_litBits {n : Int} (h : litOk n = true) : (litBits n).toInt = n := by
  simp only [litOk, decide_eq_true_eq] at h
  rw [litBits, BitVec.toInt_ofInt]
  apply Int.bmod_eq_of_le_mul_two <;> push_cast <;> omega

/-! ### A word is its six fields -/

/-- The word of a tag, three register fields, the reserved field and the literal field (30_encoding.md R88). -/
def sixFields (t : BitVec 4) (a b c r : BitVec 3) (l : BitVec 16) : PackedWord := t ++ a ++ b ++ c ++ r ++ l

theorem packFields_eq_sixFields (op : Op) (a b c : BitVec 3) (lit : BitVec 16) :
    packFields op a b c lit = sixFields op.tag a b c 0 lit := rfl

/-- Every word is made of its fields. -/
theorem word_eq_sixFields (w : PackedWord) :
    w = sixFields (tagField w) (w.extractLsb' 25 3) (w.extractLsb' 22 3) (w.extractLsb' 19 3)
      (w.extractLsb' 16 3) (w.extractLsb' 0 16) := by
  apply BitVec.eq_of_getLsbD_eq
  intro k hk
  simp only [sixFields, tagField, BitVec.getLsbD_append, BitVec.getLsbD_extractLsb']
  interval_cases k <;> simp

/-- Two appended pairs are equal when their parts are. -/
theorem append_eq_append_iff {m n : Nat} (x x' : BitVec m) (y y' : BitVec n) :
    x ++ y = x' ++ y' ↔ x = x' ∧ y = y' := by
  constructor
  · intro h
    have hl := congrArg (BitVec.extractLsb' n m) h
    have hr := congrArg (BitVec.extractLsb' 0 n) h
    rw [BitVec.extractLsb'_append_eq_left, BitVec.extractLsb'_append_eq_left] at hl
    rw [BitVec.extractLsb'_append_eq_right, BitVec.extractLsb'_append_eq_right] at hr
    exact ⟨hl, hr⟩
  · rintro ⟨rfl, rfl⟩; rfl

/-- Two words are equal when their fields are. -/
theorem sixFields_inj {t t' : BitVec 4} {a a' b b' c c' r r' : BitVec 3} {l l' : BitVec 16} :
    sixFields t a b c r l = sixFields t' a' b' c' r' l' ↔
      t = t' ∧ a = a' ∧ b = b' ∧ c = c' ∧ r = r' ∧ l = l' := by
  constructor
  · intro h
    obtain ⟨h, h6⟩ := (append_eq_append_iff (m := 4 + 3 + 3 + 3 + 3) (n := 16) _ _ _ _).1 h
    simp only [append_eq_append_iff, and_assoc] at h
    exact ⟨h.1, h.2.1, h.2.2.1, h.2.2.2.1, h.2.2.2.2, h6⟩
  · rintro ⟨rfl, rfl, rfl, rfl, rfl, rfl⟩; rfl

/-- Masking works field by field. -/
theorem sixFields_and (t t' : BitVec 4) (a a' b b' c c' r r' : BitVec 3) (l l' : BitVec 16) :
    sixFields t a b c r l &&& sixFields t' a' b' c' r' l' =
      sixFields (t &&& t') (a &&& a') (b &&& b') (c &&& c') (r &&& r') (l &&& l') := by
  refine (BitVec.and_append (w := 4 + 3 + 3 + 3 + 3) (v := 16)).trans ?_
  simp only [BitVec.and_append]
  rfl

/-! ### What decodes is well-formed -/

/-- A literal read from 16 bits is in range. -/
theorem litOk_litField (w : PackedWord) : litOk (litField w) = true := by
  unfold litField litOk
  generalize BitVec.extractLsb' 0 16 w = x
  have h1 := x.le_toInt
  have h2 := x.toInt_lt
  norm_num at h1 h2
  exact decide_eq_true ⟨h1, by omega⟩

/-- A literal token that parses is in range. -/
theorem litOk_of_parseLit {s : List Char} {n : Int} (h : parseLit s = some n) : litOk n = true := by
  unfold parseLit at h
  split at h
  · split at h
    · next hn => cases h; exact hn
    · cases h
  · cases h

theorem litOk_of_parseMem {s : List Char} {n : Int} {r : Reg} (h : parseMem s = some (n, r)) :
    litOk n = true := by
  unfold parseMem at h
  split at h
  · split at h
    · next hl _ => cases h; exact litOk_of_parseLit hl
    · cases h
  · cases h

theorem wellFormed_instrOfFields (op : Op) (a b c : Reg) {lit : Int} (h : litOk lit = true) :
    (op.instrOfFields a b c lit).wellFormed = true := by
  cases op <;> simp [Op.instrOfFields, Instr.wellFormed, h]

/-- An operand list that parses gives a well-formed instruction of its opcode. -/
theorem wellFormed_of_parseOperands {op : Op} {l : List (List Char)} {i : Instr}
    (h : parseOperands op l = some i) : i.wellFormed = true ∧ i.op = op := by
  unfold parseOperands at h
  split at h <;> (try split at h) <;> simp only [Option.some.injEq, reduceCtorEq] at h <;> subst h <;>
    refine ⟨wellFormed_instrOfFields _ _ _ _ ?_, by simp⟩ <;>
    first
    | rfl
    | exact litOk_of_parseLit (by assumption)
    | exact litOk_of_parseMem (by assumption)

/-- Whatever record decodes, decodes to a well-formed instruction. -/
theorem wellFormed_of_decodeRecord {r : Record} {i : Instr} (h : decodeRecord r = .ok i) :
    i.wellFormed = true := by
  cases r with
  | packed w =>
    simp only [decodeRecord, decodeWord] at h
    split at h
    · cases h
    · split at h
      · cases h; exact wellFormed_instrOfFields _ _ _ _ (litOk_litField w)
      · cases h
  | text line =>
    simp only [decodeRecord, decodeText] at h
    split at h
    · cases h
    · split at h
      · cases h
      · split at h
        · split at h
          · next hp => cases h; exact (wellFormed_of_parseOperands hp).1
          · cases h
        · cases h

/-! ### Tokens of an assembler line -/

open Machine

theorem inLiteralRange_of_mem {n : Int} (i : Instr) (h : -32768 ≤ n ∧ n ≤ 32767) : inLiteralRange n i = .ok i :=
  if_pos h

theorem inLiteralRange_of_not_mem {n : Int} (i : Instr) (h : ¬ (-32768 ≤ n ∧ n ≤ 32767)) :
    inLiteralRange n i = .error .malformedInstruction := if_neg h

theorem parseDigits_of_digitRun {ds : List Char} (h : DigitRun ds) : parseDigits ds = some (digitsValue ds) := if_pos h

/-- What a register token of any digits is read as. -/
theorem parseReg_of_digitRun {ds : List Char} (h : DigitRun ds) :
    parseReg ('R' :: ds) = if hv : digitsValue ds < 8 then some ⟨digitsValue ds, hv⟩ else none := by
  simp [parseReg, parseDigits_of_digitRun h]

theorem parseSigned_plus {ds : List Char} (h : DigitRun ds) : parseSigned ('+' :: ds) = some (digitsValue ds : Int) := by
  simp [parseSigned, parseDigits_of_digitRun h]

theorem parseSigned_minus {ds : List Char} (h : DigitRun ds) :
    parseSigned ('-' :: ds) = some (-(digitsValue ds : Int)) := by
  simp [parseSigned, parseDigits_of_digitRun h]

/-- An integer token's literal, from its value. -/
theorem parseLit_of_parseSigned {s : List Char} {n : Int} (h : parseSigned s = some n) :
    parseLit s = if -32768 ≤ n ∧ n ≤ 32767 then some n else none := by
  simp [parseLit, h, litOk]

/-- A memory operand, from the readings of its offset and its base. -/
theorem parseMem_append {offset base : List Char} (h : ∀ c ∈ offset, c ≠ '(') :
    parseMem (offset ++ '(' :: (base ++ [')'])) =
      match parseLit offset, parseReg base with
      | some n, some rs => some (n, rs)
      | _, _ => none := by
  have hp : ∀ c ∈ offset, (c != '(') = true := fun c hc => by simpa using h c hc
  have hb : parseBase (base ++ [')']) = parseReg base := by simp [parseBase]
  unfold parseMem
  rw [List.dropWhile_append_of_pos hp, List.takeWhile_append_of_pos hp]
  cases hl : parseLit offset <;> cases hr : parseReg base <;> simp [hl, hr, hb]

end Sys2Proof
end

