-- ==== Sys2Proof/Laws/State.lean ====
section
/-! SUPPORT. One lemma per field of `State` per update, so that no later proof unfolds a record update. -/

namespace Sys2Proof.Machine

/-! ### `State.setReg` -/

@[simp] theorem State.setReg_cfg (s : State) (i : Reg) (v : Word) :
    (s.setReg i v).cfg = s.cfg := rfl
@[simp] theorem State.setReg_regs (s : State) (i : Reg) (v : Word) :
    (s.setReg i v).regs = s.regs.set i v := rfl
@[simp] theorem State.setReg_pc (s : State) (i : Reg) (v : Word) :
    (s.setReg i v).pc = s.pc := rfl
@[simp] theorem State.setReg_running (s : State) (i : Reg) (v : Word) :
    (s.setReg i v).running = s.running := rfl
@[simp] theorem State.setReg_status (s : State) (i : Reg) (v : Word) :
    (s.setReg i v).status = s.status := rfl
@[simp] theorem State.setReg_faultAddr (s : State) (i : Reg) (v : Word) :
    (s.setReg i v).faultAddr = s.faultAddr := rfl
@[simp] theorem State.setReg_enabled (s : State) (i : Reg) (v : Word) :
    (s.setReg i v).enabled = s.enabled := rfl
@[simp] theorem State.setReg_mem (s : State) (i : Reg) (v : Word) :
    (s.setReg i v).mem = s.mem := rfl
@[simp] theorem State.setReg_cache (s : State) (i : Reg) (v : Word) :
    (s.setReg i v).cache = s.cache := rfl
@[simp] theorem State.setReg_program (s : State) (i : Reg) (v : Word) :
    (s.setReg i v).program = s.program := rfl

/-! ### `State.setPc` -/

@[simp] theorem State.setPc_cfg (s : State) (t : Int) :
    (s.setPc t).cfg = s.cfg := rfl
@[simp] theorem State.setPc_regs (s : State) (t : Int) :
    (s.setPc t).regs = s.regs := rfl
@[simp] theorem State.setPc_pc (s : State) (t : Int) :
    (s.setPc t).pc = t := rfl
@[simp] theorem State.setPc_running (s : State) (t : Int) :
    (s.setPc t).running = s.running := rfl
@[simp] theorem State.setPc_status (s : State) (t : Int) :
    (s.setPc t).status = s.status := rfl
@[simp] theorem State.setPc_faultAddr (s : State) (t : Int) :
    (s.setPc t).faultAddr = s.faultAddr := rfl
@[simp] theorem State.setPc_enabled (s : State) (t : Int) :
    (s.setPc t).enabled = s.enabled := rfl
@[simp] theorem State.setPc_mem (s : State) (t : Int) :
    (s.setPc t).mem = s.mem := rfl
@[simp] theorem State.setPc_cache (s : State) (t : Int) :
    (s.setPc t).cache = s.cache := rfl
@[simp] theorem State.setPc_program (s : State) (t : Int) :
    (s.setPc t).program = s.program := rfl

/-! ### `State.advance` -/

@[simp] theorem State.advance_cfg (s : State) :
    (s.advance).cfg = s.cfg := rfl
@[simp] theorem State.advance_regs (s : State) :
    (s.advance).regs = s.regs := rfl
@[simp] theorem State.advance_pc (s : State) :
    (s.advance).pc = s.pc + 1 := rfl
@[simp] theorem State.advance_running (s : State) :
    (s.advance).running = s.running := rfl
@[simp] theorem State.advance_status (s : State) :
    (s.advance).status = s.status := rfl
@[simp] theorem State.advance_faultAddr (s : State) :
    (s.advance).faultAddr = s.faultAddr := rfl
@[simp] theorem State.advance_enabled (s : State) :
    (s.advance).enabled = s.enabled := rfl
@[simp] theorem State.advance_mem (s : State) :
    (s.advance).mem = s.mem := rfl
@[simp] theorem State.advance_cache (s : State) :
    (s.advance).cache = s.cache := rfl
@[simp] theorem State.advance_program (s : State) :
    (s.advance).program = s.program := rfl

/-! ### `State.memWrite` -/

@[simp] theorem State.memWrite_cfg (s : State) (a : Nat) (v : Word) :
    (s.memWrite a v).cfg = s.cfg := rfl
@[simp] theorem State.memWrite_regs (s : State) (a : Nat) (v : Word) :
    (s.memWrite a v).regs = s.regs := rfl
@[simp] theorem State.memWrite_pc (s : State) (a : Nat) (v : Word) :
    (s.memWrite a v).pc = s.pc := rfl
@[simp] theorem State.memWrite_running (s : State) (a : Nat) (v : Word) :
    (s.memWrite a v).running = s.running := rfl
@[simp] theorem State.memWrite_status (s : State) (a : Nat) (v : Word) :
    (s.memWrite a v).status = s.status := rfl
@[simp] theorem State.memWrite_faultAddr (s : State) (a : Nat) (v : Word) :
    (s.memWrite a v).faultAddr = s.faultAddr := rfl
@[simp] theorem State.memWrite_enabled (s : State) (a : Nat) (v : Word) :
    (s.memWrite a v).enabled = s.enabled := rfl
@[simp] theorem State.memWrite_mem (s : State) (a : Nat) (v : Word) :
    (s.memWrite a v).mem = Memory.write s.mem a v := rfl
@[simp] theorem State.memWrite_cache (s : State) (a : Nat) (v : Word) :
    (s.memWrite a v).cache = s.cache := rfl
@[simp] theorem State.memWrite_program (s : State) (a : Nat) (v : Word) :
    (s.memWrite a v).program = s.program := rfl

/-! ### `State.cacheFill` -/

@[simp] theorem State.cacheFill_cfg (s : State) (a : Nat) (v : Word) :
    (s.cacheFill a v).cfg = s.cfg := rfl
@[simp] theorem State.cacheFill_regs (s : State) (a : Nat) (v : Word) :
    (s.cacheFill a v).regs = s.regs := rfl
@[simp] theorem State.cacheFill_pc (s : State) (a : Nat) (v : Word) :
    (s.cacheFill a v).pc = s.pc := rfl
@[simp] theorem State.cacheFill_running (s : State) (a : Nat) (v : Word) :
    (s.cacheFill a v).running = s.running := rfl
@[simp] theorem State.cacheFill_status (s : State) (a : Nat) (v : Word) :
    (s.cacheFill a v).status = s.status := rfl
@[simp] theorem State.cacheFill_faultAddr (s : State) (a : Nat) (v : Word) :
    (s.cacheFill a v).faultAddr = s.faultAddr := rfl
@[simp] theorem State.cacheFill_enabled (s : State) (a : Nat) (v : Word) :
    (s.cacheFill a v).enabled = s.enabled := rfl
@[simp] theorem State.cacheFill_mem (s : State) (a : Nat) (v : Word) :
    (s.cacheFill a v).mem = s.mem := rfl
@[simp] theorem State.cacheFill_cache (s : State) (a : Nat) (v : Word) :
    (s.cacheFill a v).cache = Cache.fill s.cache a v := rfl
@[simp] theorem State.cacheFill_program (s : State) (a : Nat) (v : Word) :
    (s.cacheFill a v).program = s.program := rfl

/-! ### `State.cacheFlush` -/

@[simp] theorem State.cacheFlush_cfg (s : State) :
    (s.cacheFlush).cfg = s.cfg := rfl
@[simp] theorem State.cacheFlush_regs (s : State) :
    (s.cacheFlush).regs = s.regs := rfl
@[simp] theorem State.cacheFlush_pc (s : State) :
    (s.cacheFlush).pc = s.pc := rfl
@[simp] theorem State.cacheFlush_running (s : State) :
    (s.cacheFlush).running = s.running := rfl
@[simp] theorem State.cacheFlush_status (s : State) :
    (s.cacheFlush).status = s.status := rfl
@[simp] theorem State.cacheFlush_faultAddr (s : State) :
    (s.cacheFlush).faultAddr = s.faultAddr := rfl
@[simp] theorem State.cacheFlush_enabled (s : State) :
    (s.cacheFlush).enabled = s.enabled := rfl
@[simp] theorem State.cacheFlush_mem (s : State) :
    (s.cacheFlush).mem = s.mem := rfl
@[simp] theorem State.cacheFlush_cache (s : State) :
    (s.cacheFlush).cache = Cache.flushed := rfl
@[simp] theorem State.cacheFlush_program (s : State) :
    (s.cacheFlush).program = s.program := rfl

/-! ### `State.setEnabled` -/

@[simp] theorem State.setEnabled_cfg (s : State) (b : Bool) :
    (s.setEnabled b).cfg = s.cfg := rfl
@[simp] theorem State.setEnabled_regs (s : State) (b : Bool) :
    (s.setEnabled b).regs = s.regs := rfl
@[simp] theorem State.setEnabled_pc (s : State) (b : Bool) :
    (s.setEnabled b).pc = s.pc := rfl
@[simp] theorem State.setEnabled_running (s : State) (b : Bool) :
    (s.setEnabled b).running = s.running := rfl
@[simp] theorem State.setEnabled_status (s : State) (b : Bool) :
    (s.setEnabled b).status = s.status := rfl
@[simp] theorem State.setEnabled_faultAddr (s : State) (b : Bool) :
    (s.setEnabled b).faultAddr = s.faultAddr := rfl
@[simp] theorem State.setEnabled_enabled (s : State) (b : Bool) :
    (s.setEnabled b).enabled = b := rfl
@[simp] theorem State.setEnabled_mem (s : State) (b : Bool) :
    (s.setEnabled b).mem = s.mem := rfl
@[simp] theorem State.setEnabled_cache (s : State) (b : Bool) :
    (s.setEnabled b).cache = s.cache := rfl
@[simp] theorem State.setEnabled_program (s : State) (b : Bool) :
    (s.setEnabled b).program = s.program := rfl

/-! ### `State.takeFault` -/

@[simp] theorem State.takeFault_cfg (s : State) (k : FaultKind) :
    (s.takeFault k).cfg = s.cfg := rfl
@[simp] theorem State.takeFault_regs (s : State) (k : FaultKind) :
    (s.takeFault k).regs = s.regs := rfl
@[simp] theorem State.takeFault_pc (s : State) (k : FaultKind) :
    (s.takeFault k).pc = s.pc := rfl
@[simp] theorem State.takeFault_running (s : State) (k : FaultKind) :
    (s.takeFault k).running = s.running := rfl
@[simp] theorem State.takeFault_status (s : State) (k : FaultKind) :
    (s.takeFault k).status = k.status := rfl
@[simp] theorem State.takeFault_faultAddr (s : State) (k : FaultKind) :
    (s.takeFault k).faultAddr = k.faultAddrAfter s.faultAddr := rfl
@[simp] theorem State.takeFault_enabled (s : State) (k : FaultKind) :
    (s.takeFault k).enabled = s.enabled := rfl
@[simp] theorem State.takeFault_mem (s : State) (k : FaultKind) :
    (s.takeFault k).mem = s.mem := rfl
@[simp] theorem State.takeFault_cache (s : State) (k : FaultKind) :
    (s.takeFault k).cache = s.cache := rfl
@[simp] theorem State.takeFault_program (s : State) (k : FaultKind) :
    (s.takeFault k).program = s.program := rfl

/-! ### `State.runStart` -/

@[simp] theorem State.runStart_cfg (s : State) :
    (s.runStart).cfg = s.cfg := rfl
@[simp] theorem State.runStart_regs (s : State) :
    (s.runStart).regs = s.regs := rfl
@[simp] theorem State.runStart_pc (s : State) :
    (s.runStart).pc = 0 := rfl
@[simp] theorem State.runStart_running (s : State) :
    (s.runStart).running = true := rfl
@[simp] theorem State.runStart_status (s : State) :
    (s.runStart).status = .running := rfl
@[simp] theorem State.runStart_faultAddr (s : State) :
    (s.runStart).faultAddr = 0 := rfl
@[simp] theorem State.runStart_enabled (s : State) :
    (s.runStart).enabled = s.enabled := rfl
@[simp] theorem State.runStart_mem (s : State) :
    (s.runStart).mem = if s.cfg.runResetsMemory then [] else s.mem := rfl
@[simp] theorem State.runStart_cache (s : State) :
    (s.runStart).cache = if s.cfg.runResetsCache then Cache.flushed else s.cache := rfl
@[simp] theorem State.runStart_program (s : State) :
    (s.runStart).program = s.program := rfl

/-! ### `State.cacheSet` -/

@[simp] theorem State.cacheSet_cfg (s : State) (a : Nat) (v : Word) :
    (s.cacheSet a v).cfg = s.cfg := rfl
@[simp] theorem State.cacheSet_regs (s : State) (a : Nat) (v : Word) :
    (s.cacheSet a v).regs = s.regs := rfl
@[simp] theorem State.cacheSet_pc (s : State) (a : Nat) (v : Word) :
    (s.cacheSet a v).pc = s.pc := rfl
@[simp] theorem State.cacheSet_running (s : State) (a : Nat) (v : Word) :
    (s.cacheSet a v).running = s.running := rfl
@[simp] theorem State.cacheSet_status (s : State) (a : Nat) (v : Word) :
    (s.cacheSet a v).status = s.status := rfl
@[simp] theorem State.cacheSet_faultAddr (s : State) (a : Nat) (v : Word) :
    (s.cacheSet a v).faultAddr = s.faultAddr := rfl
@[simp] theorem State.cacheSet_enabled (s : State) (a : Nat) (v : Word) :
    (s.cacheSet a v).enabled = s.enabled := rfl
@[simp] theorem State.cacheSet_mem (s : State) (a : Nat) (v : Word) :
    (s.cacheSet a v).mem = s.mem := rfl
@[simp] theorem State.cacheSet_cache (s : State) (a : Nat) (v : Word) :
    (s.cacheSet a v).cache = if s.enabled then Cache.fill s.cache a v else s.cache := rfl
@[simp] theorem State.cacheSet_program (s : State) (a : Nat) (v : Word) :
    (s.cacheSet a v).program = s.program := rfl

/-! ### `State.readEffect` -/

@[simp] theorem State.readEffect_cfg (s : State) (a : Nat) :
    (s.readEffect a).cfg = s.cfg := by
  unfold State.readEffect; split <;> simp_all
@[simp] theorem State.readEffect_regs (s : State) (a : Nat) :
    (s.readEffect a).regs = s.regs := by
  unfold State.readEffect; split <;> simp_all
@[simp] theorem State.readEffect_pc (s : State) (a : Nat) :
    (s.readEffect a).pc = s.pc := by
  unfold State.readEffect; split <;> simp_all
@[simp] theorem State.readEffect_running (s : State) (a : Nat) :
    (s.readEffect a).running = s.running := by
  unfold State.readEffect; split <;> simp_all
@[simp] theorem State.readEffect_status (s : State) (a : Nat) :
    (s.readEffect a).status = s.status := by
  unfold State.readEffect; split <;> simp_all
@[simp] theorem State.readEffect_faultAddr (s : State) (a : Nat) :
    (s.readEffect a).faultAddr = s.faultAddr := by
  unfold State.readEffect; split <;> simp_all
@[simp] theorem State.readEffect_enabled (s : State) (a : Nat) :
    (s.readEffect a).enabled = s.enabled := by
  unfold State.readEffect; split <;> simp_all
@[simp] theorem State.readEffect_mem (s : State) (a : Nat) :
    (s.readEffect a).mem = s.mem := by
  unfold State.readEffect; split <;> simp_all
@[simp] theorem State.readEffect_cache (s : State) (a : Nat) :
    (s.readEffect a).cache = if Cache.get s.cache a = none ∧ s.enabled then Cache.fill s.cache a (Memory.read s.mem a) else s.cache := by
  unfold State.readEffect; split <;> simp_all
@[simp] theorem State.readEffect_program (s : State) (a : Nat) :
    (s.readEffect a).program = s.program := by
  unfold State.readEffect; split <;> simp_all

/-! ### `State.writePath` -/

@[simp] theorem State.writePath_cfg (s : State) (a : Nat) (v : Word) :
    (s.writePath a v).cfg = s.cfg := by
  simp [State.writePath]
@[simp] theorem State.writePath_regs (s : State) (a : Nat) (v : Word) :
    (s.writePath a v).regs = s.regs := by
  simp [State.writePath]
@[simp] theorem State.writePath_pc (s : State) (a : Nat) (v : Word) :
    (s.writePath a v).pc = s.pc := by
  simp [State.writePath]
@[simp] theorem State.writePath_running (s : State) (a : Nat) (v : Word) :
    (s.writePath a v).running = s.running := by
  simp [State.writePath]
@[simp] theorem State.writePath_status (s : State) (a : Nat) (v : Word) :
    (s.writePath a v).status = s.status := by
  simp [State.writePath]
@[simp] theorem State.writePath_faultAddr (s : State) (a : Nat) (v : Word) :
    (s.writePath a v).faultAddr = s.faultAddr := by
  simp [State.writePath]
@[simp] theorem State.writePath_enabled (s : State) (a : Nat) (v : Word) :
    (s.writePath a v).enabled = s.enabled := by
  simp [State.writePath]
@[simp] theorem State.writePath_mem (s : State) (a : Nat) (v : Word) :
    (s.writePath a v).mem = Memory.write s.mem a v := by
  simp [State.writePath]
@[simp] theorem State.writePath_cache (s : State) (a : Nat) (v : Word) :
    (s.writePath a v).cache = if s.enabled then Cache.fill s.cache a v else s.cache := by
  unfold State.writePath; rw [State.cacheSet_cache]; rfl
@[simp] theorem State.writePath_program (s : State) (a : Nat) (v : Word) :
    (s.writePath a v).program = s.program := by
  simp [State.writePath]

/-! ### `State.cacheControl` -/

@[simp] theorem State.cacheControl_cfg (s : State) (code : Int) :
    (s.cacheControl code).cfg = s.cfg := by
  unfold State.cacheControl; (repeat' split) <;> simp_all
@[simp] theorem State.cacheControl_regs (s : State) (code : Int) :
    (s.cacheControl code).regs = s.regs := by
  unfold State.cacheControl; (repeat' split) <;> simp_all
@[simp] theorem State.cacheControl_pc (s : State) (code : Int) :
    (s.cacheControl code).pc = s.pc := by
  unfold State.cacheControl; (repeat' split) <;> simp_all
@[simp] theorem State.cacheControl_running (s : State) (code : Int) :
    (s.cacheControl code).running = s.running := by
  unfold State.cacheControl; (repeat' split) <;> simp_all
@[simp] theorem State.cacheControl_status (s : State) (code : Int) :
    (s.cacheControl code).status = s.status := by
  unfold State.cacheControl; (repeat' split) <;> simp_all
@[simp] theorem State.cacheControl_faultAddr (s : State) (code : Int) :
    (s.cacheControl code).faultAddr = s.faultAddr := by
  unfold State.cacheControl; (repeat' split) <;> simp_all
@[simp] theorem State.cacheControl_enabled (s : State) (code : Int) :
    (s.cacheControl code).enabled = if code = 0 then false else if code = 1 then true else s.enabled := by
  unfold State.cacheControl; (repeat' split) <;> simp_all
@[simp] theorem State.cacheControl_mem (s : State) (code : Int) :
    (s.cacheControl code).mem = s.mem := by
  unfold State.cacheControl; (repeat' split) <;> simp_all
@[simp] theorem State.cacheControl_cache (s : State) (code : Int) :
    (s.cacheControl code).cache = if code = 2 then Cache.flushed else s.cache := by
  unfold State.cacheControl; (repeat' split) <;> simp_all
@[simp] theorem State.cacheControl_program (s : State) (code : Int) :
    (s.cacheControl code).program = s.program := by
  unfold State.cacheControl; (repeat' split) <;> simp_all

/-! ### Register reads -/

@[simp] theorem State.reg_setReg_self (s : State) (i : Reg) (v : Word) : (s.setReg i v).reg i = v := by
  simp [State.reg]

@[simp] theorem State.reg_setReg_ne (s : State) {i j : Reg} (v : Word) (h : i ≠ j) :
    (s.setReg i v).reg j = s.reg j := by
  simp [State.reg, Fin.val_inj, h]

/-- A register read sees the register file and nothing else. -/
theorem State.reg_congr {s t : State} (h : t.regs = s.regs) (i : Reg) : t.reg i = s.reg i := by
  simp [State.reg, h]

@[simp] theorem State.reg_setPc (s : State) (t : Int) (i : Reg) :
    (s.setPc t).reg i = s.reg i := rfl
@[simp] theorem State.reg_advance (s : State) (i : Reg) :
    (s.advance).reg i = s.reg i := rfl
@[simp] theorem State.reg_memWrite (s : State) (a : Nat) (v : Word) (i : Reg) :
    (s.memWrite a v).reg i = s.reg i := rfl
@[simp] theorem State.reg_cacheFill (s : State) (a : Nat) (v : Word) (i : Reg) :
    (s.cacheFill a v).reg i = s.reg i := rfl
@[simp] theorem State.reg_cacheFlush (s : State) (i : Reg) :
    (s.cacheFlush).reg i = s.reg i := rfl
@[simp] theorem State.reg_setEnabled (s : State) (b : Bool) (i : Reg) :
    (s.setEnabled b).reg i = s.reg i := rfl
@[simp] theorem State.reg_takeFault (s : State) (k : FaultKind) (i : Reg) :
    (s.takeFault k).reg i = s.reg i := rfl
@[simp] theorem State.reg_runStart (s : State) (i : Reg) :
    (s.runStart).reg i = s.reg i := rfl
@[simp] theorem State.reg_cacheSet (s : State) (a : Nat) (v : Word) (i : Reg) :
    (s.cacheSet a v).reg i = s.reg i :=
  State.reg_congr (by simp) i
@[simp] theorem State.reg_readEffect (s : State) (a : Nat) (i : Reg) :
    (s.readEffect a).reg i = s.reg i :=
  State.reg_congr (by simp) i
@[simp] theorem State.reg_writePath (s : State) (a : Nat) (v : Word) (i : Reg) :
    (s.writePath a v).reg i = s.reg i :=
  State.reg_congr (by simp) i
@[simp] theorem State.reg_cacheControl (s : State) (code : Int) (i : Reg) :
    (s.cacheControl code).reg i = s.reg i :=
  State.reg_congr (by simp) i

end Sys2Proof.Machine
end

