-- ==== Sys2Proof/Laws/Words.lean ====
section
/-! SUPPORT. `wrap` and the range of a pattern: what every arithmetic result satisfies. -/

namespace Sys2Proof.Machine

/-- `XLEN` is one more than the width without its sign bit. -/
theorem two_pow_xlen (c : Config) : (2 : Int) ^ c.xlen = 2 * 2 ^ (c.xlen - 1) := by
  have h : c.xlen = (c.xlen - 1) + 1 := by unfold Config.xlen; omega
  conv_lhs => rw [h]
  rw [pow_succ, mul_comm]

/-- Every width holds 16 signed bits (00_scope.md R7). -/
theorem two_pow_le (c : Config) : (32768 : Int) ≤ 2 ^ (c.xlen - 1) := by
  have h : 15 ≤ c.xlen - 1 := by unfold Config.xlen; omega
  calc (32768 : Int) = 2 ^ 15 := by norm_num
    _ ≤ 2 ^ (c.xlen - 1) := pow_le_pow_right₀ (by norm_num) h

/-- `wrap` as a balanced remainder. -/
theorem wrap_eq_bmod (c : Config) (n : Int) : wrap c n = n.bmod (2 ^ c.xlen) := by
  simp [wrap, BitVec.toInt_ofInt]

/-- What `wrap` gives is a pattern. -/
theorem fits_wrap (c : Config) (n : Int) : fits c (wrap c n) := by
  have hp := two_pow_xlen c
  have hle := BitVec.le_toInt (BitVec.ofInt c.xlen n)
  have hlt := BitVec.toInt_lt (x := BitVec.ofInt c.xlen n)
  exact ⟨hle, hlt⟩

/-- A pattern's integer is not changed by `wrap`. -/
theorem wrap_of_fits {c : Config} {n : Int} (h : fits c n) : wrap c n = n := by
  have hp := two_pow_xlen c
  rw [wrap_eq_bmod]
  apply Int.bmod_eq_of_le_mul_two
  · push_cast; rw [hp]; have := h.1; linarith
  · push_cast; rw [hp]; have := h.2; linarith

/-- A literal is a pattern of every width. -/
theorem fits_of_litRange (c : Config) {n : Int} (h : -32768 ≤ n ∧ n ≤ 32767) : fits c n := by
  have hp := two_pow_le c
  exact ⟨by linarith [h.1], by linarith [h.2]⟩

theorem fits_zero (c : Config) : fits c 0 := fits_of_litRange c (by norm_num)

/-- SLT's result is a pattern. -/
theorem fits_setOnLess (c : Config) (a b : Word) : fits c (setOnLess a b) := by
  unfold setOnLess
  split <;> exact fits_of_litRange c (by norm_num)

end Sys2Proof.Machine
end

