-- ==== Sys2Proof/Laws/Ops.lean ====
section
/-! SUPPORT. One lemma per shared operation that says what it can do. -/

namespace Sys2Proof.Machine

/-! ### Reading and writing memory through the operations -/

/-- `ReadPath` on a hit: the entry, and no effect (20_memory.md R60). -/
theorem readPath_hit {s : State} {a : Nat} {v : Word} (h : Cache.get s.cache a = some v) :
    s.readValue a = v ∧ s.readEffect a = s := by
  simp [State.readValue, State.readEffect, h]

/-- `ReadPath` on a miss: the cell, and `CacheSet` of it (20_memory.md R60). -/
theorem readPath_miss {s : State} {a : Nat} (h : Cache.get s.cache a = none) :
    s.readValue a = Memory.read s.mem a ∧ s.readEffect a = s.cacheSet a (Memory.read s.mem a) := by
  simp [State.readValue, State.readEffect, h]

/-- The lines after `CacheSet`: the written one if enabled, else all as before (20_memory.md R56). -/
theorem cacheGet_cacheSet (s : State) (a b : Nat) (v : Word) :
    Cache.get (s.cacheSet a v).cache b = if s.enabled = true ∧ b = a then some v else Cache.get s.cache b := by
  rw [State.cacheSet_cache]
  by_cases he : s.enabled = true
  · simp [he, Cache.get_fill]
  · simp [he]

/-- The lines after `ReadPath`: a miss fills its line if the cache is enabled; nothing else changes. -/
theorem cacheGet_readEffect (s : State) (a b : Nat) :
    Cache.get (s.readEffect a).cache b =
      if s.enabled = true ∧ b = a ∧ Cache.get s.cache a = none then some (Memory.read s.mem a)
      else Cache.get s.cache b := by
  cases h : Cache.get s.cache a with
  | none => rw [(readPath_miss h).2, cacheGet_cacheSet]; simp
  | some v => rw [(readPath_hit h).2]; simp

/-- The lines after `WritePath`: the stored line if enabled; nothing else changes. -/
theorem cacheGet_writePath (s : State) (a b : Nat) (v : Word) :
    Cache.get (s.writePath a v).cache b = if s.enabled = true ∧ b = a then some v else Cache.get s.cache b := by
  unfold State.writePath
  rw [cacheGet_cacheSet]
  rfl

/-! ### Faults -/

/-- What taking a fault leaves of the fault-address register. -/
@[simp] theorem faultAddrAfter_addressOutOfRange (b ea : Int) :
    FaultKind.faultAddrAfter b (.addressOutOfRange ea) = ea := rfl

@[simp] theorem faultStatus_addressOutOfRange (ea : Int) :
    (FaultKind.addressOutOfRange ea).status = .addressOutOfRange := rfl

/-- A fault's status is not that of a run in progress. -/
theorem faultStatus_ne_running (k : FaultKind) : k.status ≠ .running := by
  cases k <;> simp [FaultKind.status]

end Sys2Proof.Machine
end

