-- ==== Sys2Proof/Laws/Exec.lean ====
section
/-! SUPPORT. What `exec` can do, said once: each instruction's next state over the shared operations, and the
alternatives of LW and SW. -/

namespace Sys2Proof.Machine

/-- The state in which an instruction that does not fault has run its handler, before the generic increment. -/
def handled (i : Instr) (s : State) : State :=
  match i with
  | .add rd rs rt => s.setReg rd (wrap s.cfg (s.reg rs + s.reg rt))
  | .addi rt rs imm => s.setReg rt (wrap s.cfg (s.reg rs + imm))
  | .sub rd rs rt => s.setReg rd (wrap s.cfg (s.reg rs - s.reg rt))
  | .slt rd rs rt => s.setReg rd (setOnLess (s.reg rs) (s.reg rt))
  | .bne rs rt offset => if patternsDiffer (s.reg rs) (s.reg rt) then s.setPc (s.pc + offset) else s
  | .j target => s.setPc target
  | .jal target => (s.setReg linkReg (wrap s.cfg (s.pc + 1))).setPc target
  | .lw rt offset rs =>
    (s.readEffect (effectiveAddress s rs offset).toNat).setReg rt
      (s.readValue (effectiveAddress s rs offset).toNat)
  | .sw rt offset rs => s.writePath (effectiveAddress s rs offset).toNat (s.reg rt)
  | .cache code => s.cacheControl code
  | .halt => { s with running := false }

/-- An instruction faults exactly when it accesses an address outside the MemoryBus. -/
def OutOfRange (i : Instr) (s : State) : Prop := ∃ ea, dataAddress i s = some ea ∧ ¬ inMemory ea

/-- An instruction whose access, if any, is in range runs its handler and increments `pc`. -/
theorem exec_of_inRange {i : Instr} {s : State} (h : ¬ OutOfRange i s) :
    exec i s = .next (handled i s).advance := by
  cases i <;> try rfl
  all_goals
    rename_i rt offset rs
    have hin : inMemory (effectiveAddress s rs offset) := by
      by_contra hc
      exact h ⟨_, rfl, hc⟩
    simp [exec, execLw, execSw, handled, hin]

/-- An instruction whose access is out of range takes the AddressOutOfRange fault. -/
theorem exec_of_outOfRange {i : Instr} {s : State} {ea : Int} (h : dataAddress i s = some ea)
    (hout : ¬ inMemory ea) : exec i s = .next (s.takeFault (.addressOutOfRange ea)) := by
  cases i <;> simp only [dataAddress, Option.some.injEq, reduceCtorEq] at h
  all_goals subst h; simp only [exec, execLw, execSw, if_neg hout]

/-- The alternatives of `exec`: the handler and the increment, or the fault. -/
theorem exec_cases {i : Instr} {s t : State} (h : exec i s = .next t) :
    (¬ OutOfRange i s ∧ t = (handled i s).advance) ∨
    ∃ ea, dataAddress i s = some ea ∧ ¬ inMemory ea ∧ t = s.takeFault (.addressOutOfRange ea) := by
  by_cases ho : OutOfRange i s
  · obtain ⟨ea, ha, hn⟩ := ho
    rw [exec_of_outOfRange ha hn] at h
    exact .inr ⟨ea, ha, hn, by cases h; rfl⟩
  · rw [exec_of_inRange ho] at h
    exact .inl ⟨ho, by cases h; rfl⟩

/-! ### The fields a handler leaves -/

@[simp] theorem handled_cfg (i : Instr) (s : State) : (handled i s).cfg = s.cfg := by
  cases i <;> simp [handled]; split <;> simp

@[simp] theorem handled_status (i : Instr) (s : State) : (handled i s).status = s.status := by
  cases i <;> simp [handled]; split <;> simp

@[simp] theorem handled_faultAddr (i : Instr) (s : State) : (handled i s).faultAddr = s.faultAddr := by
  cases i <;> simp [handled]; split <;> simp

@[simp] theorem handled_program (i : Instr) (s : State) : (handled i s).program = s.program := by
  cases i <;> simp [handled]; split <;> simp

/-- Only HALT's handler writes the running flag. -/
theorem handled_running (i : Instr) (s : State) :
    (handled i s).running = if i = .halt then false else s.running := by
  cases i <;> simp [handled]; split <;> simp

/-- The index a completed instruction continues at. -/
theorem handled_advance_pc (i : Instr) (s : State) : (handled i s).advance.pc = nextPc i s := by
  cases i <;> simp [handled, nextPc]
  next rs rt offset =>
    by_cases h : s.reg rs = s.reg rt <;> simp [patternsDiffer, h]

end Sys2Proof.Machine
end

