-- ==== Sys2Proof/Laws/PerInstr.lean ====
section
/-! SUPPORT. What is said of every instruction, one lemma per constructor: the encoded word has the tag of its opcode and
nothing in the bits its format reserves (30_encoding.md R89, R91). -/

namespace Sys2Proof.Laws.CleanWord

/-- The packed word of the instruction carries its opcode's tag, and its reserved bits are zero. -/
def Statement (i : Instr) : Prop :=
  tagField (encode i) = i.op.tag ∧ encode i &&& i.op.format.reservedMask = 0

theorem reserved_r (op : Op) (a b c : BitVec 3) : packFields op a b c 0 &&& 0x0007FFFF = 0 := by
  rw [packFields_eq_sixFields, show (0x0007FFFF : PackedWord) = sixFields 0 0 0 0 7 0xFFFF by decide, sixFields_and,
    show (0 : PackedWord) = sixFields 0 0 0 0 0 0 by decide, sixFields_inj]
  simp

theorem reserved_two_regs (op : Op) (a b : BitVec 3) (lit : BitVec 16) :
    packFields op a b 0 lit &&& 0x003F0000 = 0 := by
  rw [packFields_eq_sixFields, show (0x003F0000 : PackedWord) = sixFields 0 0 0 7 7 0 by decide, sixFields_and,
    show (0 : PackedWord) = sixFields 0 0 0 0 0 0 by decide, sixFields_inj]
  simp

theorem reserved_no_regs (op : Op) (lit : BitVec 16) :
    packFields op 0 0 0 lit &&& 0x0FFF0000 = 0 := by
  rw [packFields_eq_sixFields, show (0x0FFF0000 : PackedWord) = sixFields 0 7 7 7 7 0 by decide, sixFields_and,
    show (0 : PackedWord) = sixFields 0 0 0 0 0 0 by decide, sixFields_inj]
  simp

theorem add (rd rs rt : Reg) : Statement (.add rd rs rt) :=
  ⟨tagField_packFields .., reserved_r ..⟩

theorem addi (rt rs : Reg) (imm : Int) : Statement (.addi rt rs imm) :=
  ⟨tagField_packFields .., reserved_two_regs ..⟩

theorem sub (rd rs rt : Reg) : Statement (.sub rd rs rt) :=
  ⟨tagField_packFields .., reserved_r ..⟩

theorem slt (rd rs rt : Reg) : Statement (.slt rd rs rt) :=
  ⟨tagField_packFields .., reserved_r ..⟩

theorem bne (rs rt : Reg) (offset : Int) : Statement (.bne rs rt offset) :=
  ⟨tagField_packFields .., reserved_two_regs ..⟩

theorem j (target : Int) : Statement (.j target) :=
  ⟨tagField_packFields .., reserved_no_regs ..⟩

theorem jal (target : Int) : Statement (.jal target) :=
  ⟨tagField_packFields .., reserved_no_regs ..⟩

theorem lw (rt : Reg) (offset : Int) (rs : Reg) : Statement (.lw rt offset rs) :=
  ⟨tagField_packFields .., reserved_two_regs ..⟩

theorem sw (rt : Reg) (offset : Int) (rs : Reg) : Statement (.sw rt offset rs) :=
  ⟨tagField_packFields .., reserved_two_regs ..⟩

theorem cache (code : Int) : Statement (.cache code) :=
  ⟨tagField_packFields .., reserved_no_regs ..⟩

theorem halt : Statement .halt := by
  unfold Statement; decide

end Sys2Proof.Laws.CleanWord
end

