-- ==== Sys2Proof/Laws/Step.lean ====
section
/-! SUPPORT. What a step can do, said once. -/

namespace Sys2Proof.Machine

theorem recordAt_of_lt {s : State} {p : Int} (h0 : 0 ≤ p) (h : p < s.progLen) :
    s.recordAt p ∈ s.program := by
  have hl : p.toNat < s.program.length := by simp [State.progLen] at h; omega
  simp [State.recordAt, hl]

/-- The fetch of a record that decodes. -/
theorem fetch_of_aboutToRun {s : State} {i : Instr} (h : AboutToRun s i) : s.fetch = .ok i := by
  obtain ⟨_, h0, _, hd⟩ := h
  simp [State.fetch, hd, not_lt.2 h0]

/-- The alternatives of one step: nothing, a stop, a fault at fetch or decode, or one instruction. -/
theorem step_cases {s t : State} (h : step s = .next t) :
    (s.status ≠ .running ∧ t = s) ∨
    (s.status = .running ∧ s.running = false ∧ t = { s with status := .halted }) ∨
    (Executing s ∧ s.progLen ≤ s.pc ∧ t = { s with status := .exhausted }) ∨
    (Executing s ∧ s.pc < s.progLen ∧ s.pc < 0 ∧ t = s.takeFault .pcOutOfRange) ∨
    (Executing s ∧ 0 ≤ s.pc ∧ s.pc < s.progLen ∧
      ∃ e, decodeRecord (s.recordAt s.pc) = .error e ∧ t = s.takeFault (faultOfDecodeError e)) ∨
    ∃ i, AboutToRun s i ∧ exec i s = .next t := by
  unfold step engineStep at h
  by_cases hs : s.status = .running
  swap
  · rw [if_neg hs] at h; cases h; exact .inl ⟨hs, rfl⟩
  rw [if_pos hs] at h
  unfold loopTurn at h
  by_cases hr : s.running = false
  · rw [if_pos hr] at h; cases h; exact .inr (.inl ⟨hs, hr, rfl⟩)
  have hx : Executing s := ⟨hs, by simpa using hr⟩
  rw [if_neg hr] at h
  by_cases hl : s.progLen ≤ s.pc
  · rw [if_pos hl] at h; cases h; exact .inr (.inr (.inl ⟨hx, hl, rfl⟩))
  rw [if_neg hl] at h
  rw [not_le] at hl
  unfold stepInstruction State.fetch at h
  by_cases h0 : s.pc < 0
  · simp only [h0, if_true] at h; cases h; exact .inr (.inr (.inr (.inl ⟨hx, hl, h0, rfl⟩)))
  simp only [h0, if_false] at h
  rw [not_lt] at h0
  cases hd : decodeRecord (s.recordAt s.pc) with
  | ok i => rw [hd] at h; exact .inr (.inr (.inr (.inr (.inr ⟨i, ⟨hx, h0, hl, hd⟩, h⟩))))
  | error e =>
    rw [hd] at h; cases h; exact .inr (.inr (.inr (.inr (.inl ⟨hx, h0, hl, e, rfl, rfl⟩))))

/-! ### Fetching a word put in place -/

/-- The record placed at a slot is the one fetched there. -/
theorem getElem_placeRecord (program : List Record) (slot : Nat) (r : Record) :
    (placeRecord program slot r)[slot]? = some r := by
  have hl : slot < (program ++ List.replicate (slot + 1 - program.length) (Record.text "")).length := by
    simp only [List.length_append, List.length_replicate]; omega
  simp only [placeRecord, List.getElem?_set_self hl]

/-- A state with a word placed for the fetch is about to run the instruction the word decodes to. -/
theorem aboutToRun_withFetchWord (s : State) (nbits w : Nat) {i : Instr}
    (h : decodeTableWord nbits w = some i) : AboutToRun (s.withFetchWord nbits w) i := by
  have hd : decodeWord (packedOfTableWord nbits w) = .ok i := by
    unfold decodeTableWord at h
    cases hx : decodeWord (packedOfTableWord nbits w) <;> simp [hx, Except.toOption] at h
    rw [h]
  have hg := getElem_placeRecord s.program (fetchSlot s.pc) (.packed (packedOfTableWord nbits w))
  refine ⟨⟨rfl, rfl⟩, Int.natCast_nonneg _, ?_, ?_⟩
  · have := (List.getElem?_eq_some_iff.1 hg).1
    simp only [State.withFetchWord, placeForFetch, State.progLen]
    exact_mod_cast this
  · simp only [State.withFetchWord, placeForFetch, State.recordAt, Int.toNat_natCast, hg, Option.getD_some,
      decodeRecord, hd]

/-! ### Runs of a number of steps -/

@[simp] theorem run_zero (s : State) : Host.Core.run Sys2Proof.core 0 s = .next s := rfl

/-- A run of one step more starts with that step. -/
theorem run_succ_of_step {s t : State} (k : Nat) (h : step s = .next t) :
    Host.Core.run Sys2Proof.core (k + 1) s = Host.Core.run Sys2Proof.core k t := by
  have hc : Sys2Proof.core.step s = .next t := h
  rw [Host.Core.run.eq_2 Sys2Proof.core s k, hc]

/-- A run of one step more ends with that step. -/
theorem run_succ_of_run {s t u : State} {k : Nat} (h : Host.Core.run Sys2Proof.core k s = .next t)
    (hs : step t = .next u) : Host.Core.run Sys2Proof.core (k + 1) s = .next u := by
  induction k generalizing s with
  | zero => cases h; exact run_succ_of_step 0 hs
  | succ k ih =>
    cases h1 : step s with
    | next r =>
      rw [run_succ_of_step k h1] at h
      rw [run_succ_of_step (k + 1) h1]
      exact ih h
    | fault r =>
      have hc : Sys2Proof.core.step s = .fault r := h1
      rw [Host.Core.run.eq_2 Sys2Proof.core s k, hc] at h; cases h
    | refused r =>
      have hc : Sys2Proof.core.step s = .refused r := h1
      rw [Host.Core.run.eq_2 Sys2Proof.core s k, hc] at h; cases h

end Sys2Proof.Machine
end

