-- ==== Sys2Proof/Tests/Slice0.lean ====
section
/-! SUPPORT. The model's own tests: ill-formed terms, words written out from the spec's encodings, the spec's vectors
(95_test_vectors.md), one step each, and a witness for every statement that has hypotheses. -/

namespace Sys2Proof.Tests

open Sys2Proof.Machine

/-! ### Helpers -/

/-- An engine with `XLEN = 32`, its cache enabled at reset, that keeps memory and cache at a run start. -/
def cfg32 : Config := ⟨16, true, false, false⟩

/-- The same with `XLEN = 16`. -/
def cfg16 : Config := ⟨0, true, false, false⟩

/-- A run in progress on a program of packed words, everything else at its power-on value. -/
def running (words : List PackedWord) : State :=
  { State.resetWith cfg32 with status := .running, program := words.map Record.packed }

/-- A run in progress on one assembler line. -/
def runningLine (line : String) : State :=
  { State.resetWith cfg32 with status := .running, program := [.text line] }

/-- The answered next state. -/
def next? : Host.Outcome State Fault Refusal → Option State
  | .next s => some s
  | .fault _ => none
  | .refused _ => none

/-- The state with some registers set. -/
def withRegs (s : State) (vs : List (Reg × Word)) : State := vs.foldl (fun t p => t.setReg p.1 p.2) s

/-! ### Ill-formed terms (30_encoding.md R84, R96) -/

theorem test_wellFormed_addi : (Instr.addi 1 2 32768).wellFormed = false := by decide
theorem test_wellFormed_bne : (Instr.bne 1 2 (-32769)).wellFormed = false := by decide
theorem test_wellFormed_j : (Instr.j 32768).wellFormed = false := by decide
theorem test_wellFormed_jal : (Instr.jal (-32769)).wellFormed = false := by decide
theorem test_wellFormed_lw : (Instr.lw 1 32768 2).wellFormed = false := by decide
theorem test_wellFormed_sw : (Instr.sw 1 (-32769) 2).wellFormed = false := by decide
theorem test_wellFormed_cache : (Instr.cache 32768).wellFormed = false := by decide
theorem test_wellFormed_extremes :
    (Instr.j 32767).wellFormed = true ∧ (Instr.j (-32768)).wellFormed = true := by decide

/-! ### One word for each constructor, from 30_encoding.md R88 to R90: op, A, B, Cf, 000, lit16 -/

theorem test_decode_add : decodeWord 0b0000_001_010_011_000_0000000000000000 = .ok (.add 1 2 3) := by decide
theorem test_decode_addi : decodeWord 0b0001_001_010_000_000_1000000000000000 = .ok (.addi 1 2 (-32768)) := by decide
theorem test_decode_sub : decodeWord 0b0010_111_110_101_000_0000000000000000 = .ok (.sub 7 6 5) := by decide
theorem test_decode_slt : decodeWord 0b0011_011_001_010_000_0000000000000000 = .ok (.slt 3 1 2) := by decide
theorem test_decode_bne : decodeWord 0b0100_001_000_000_000_1111111111111101 = .ok (.bne 1 0 (-3)) := by decide
theorem test_decode_j : decodeWord 0b0101_000_000_000_000_0111111111111111 = .ok (.j 32767) := by decide
theorem test_decode_jal : decodeWord 0b0110_000_000_000_000_0000000000010100 = .ok (.jal 20) := by decide
theorem test_decode_lw : decodeWord 0b0111_001_010_000_000_1111111111001110 = .ok (.lw 1 (-50) 2) := by decide
theorem test_decode_sw : decodeWord 0b1000_010_001_000_000_0000000000110111 = .ok (.sw 2 55 1) := by decide
theorem test_decode_cache : decodeWord 0b1001_000_000_000_000_0000000000000010 = .ok (.cache 2) := by decide
theorem test_decode_halt : decodeWord 0b1010_000_000_000_000_0000000000000000 = .ok .halt := by decide

/-- D-17 and D-18: tags 11 and 15, and reserved bits. -/
theorem test_decode_rejects :
    decodeWord 0xB0000000 = .error .unknownInstruction ∧ decodeWord 0xFFFFFFFF = .error .unknownInstruction ∧
    decodeWord 0x00000001 = .error .malformedInstruction ∧ decodeWord 0xA0000001 = .error .malformedInstruction ∧
    decodeWord 0x50010000 = .error .malformedInstruction := by decide

/-- The opcode map's rows are the tags and reserved masks of 30_encoding.md R81 and R89, and no two rows overlap. -/
theorem test_opcodeTable :
    (∀ r ∈ opcodeTable, r.pattern = r.op.tag ++ 0#28 ∧ r.mask = 0xF#4 ++ (r.op.format.reservedMask.setWidth 28)) ∧
    opcodeTable.map (fun r => r.op) = Op.all ∧
    opcodeTable.Pairwise (fun r q => r.pattern &&& (r.mask &&& q.mask) ≠ q.pattern &&& (r.mask &&& q.mask)) := by
  decide

/-! ### Assembler lines (95_test_vectors.md 2.5) -/

/-- D-1 to D-3, D-10, D-12, D-13 and D-16. -/
theorem test_lines_decode :
    decodeText "ADD R1,R2,R3".toList = .ok (.add 1 2 3) ∧ decodeText "ADD R1, R2, R3".toList = .ok (.add 1 2 3) ∧
    decodeText "ADD\tR1,R2,R3".toList = .ok (.add 1 2 3) ∧ decodeText "  HALT  ".toList = .ok .halt ∧
    decodeText "ADDI R1,R2,-32768".toList = .ok (.addi 1 2 (-32768)) ∧
    decodeText "LW R1, 0(R3)".toList = .ok (.lw 1 0 3) ∧ decodeText "LW R1,+4(R2)".toList = .ok (.lw 1 4 2) ∧
    decodeText "CACHE 7".toList = .ok (.cache 7) := by decide

/-- D-4 and D-5. -/
theorem test_lines_unknown :
    decodeText "add R1,R2,R3".toList = .error .unknownInstruction ∧
    decodeText "NOP".toList = .error .unknownInstruction ∧
    decodeText "R1 ADD".toList = .error .unknownInstruction := by decide

/-- D-6 to D-9, D-11, D-14 and D-15. -/
theorem test_lines_malformed :
    ∀ l ∈ ["ADD R1,R2", "ADD R1,R2,R8", "ADDI R1,R2,x", "ADDI R1,R2,32768", "LW R1,0,R2", "", "HALT 1", "J", "ADD R1,,R2"],
      decodeText l.toList = .error .malformedInstruction := by decide

/-! ### One step each -/

/-- A-3: overflow wraps at `XLEN = 16`. -/
theorem test_add_wraps :
    (next? (step (withRegs { running [0x06500000] with cfg := cfg16 } [(1, 32767), (2, 1)]))).map (·.reg 3) =
      some (-32768) := by decide

/-- A-5: both sources are read before the destination is written. -/
theorem test_add_same_register :
    (next? (step (withRegs (running [0x02480000]) [(1, 21)]))).map (·.reg 1) = some 42 := by decide

/-- A-18: ADDI wraps at `XLEN = 16`. -/
theorem test_addi_wraps :
    (next? (step (withRegs { running [0x1FC07FFF] with cfg := cfg16 } [(7, 1)]))).map (·.reg 7) = some (-32768) := by
  decide

/-- A-14: R0 is an ordinary register. -/
theorem test_addi_reads_R0 :
    (next? (step (withRegs (running [0x1400000A]) [(0, 5)]))).map (·.reg 2) = some 15 := by decide

/-- A-6: the order of SUB's operands. -/
theorem test_sub_order :
    (next? (step (withRegs (running [0x26500000]) [(1, 5), (2, 7)]))).map (·.reg 3) = some (-2) := by decide

/-- A-8: negating the minimum wraps to itself. -/
theorem test_sub_minimum :
    (next? (step (withRegs (running [0x26500000]) [(2, -2147483648)]))).map (·.reg 3) = some (-2147483648) := by decide

/-- A-10: SLT compares signed values. -/
theorem test_slt_signed :
    (next? (step (withRegs (running [0x36500000]) [(1, -2147483648), (2, 2147483647)]))).map (·.reg 3) = some 1 := by
  decide

/-- A-13: equal operands give 0. -/
theorem test_slt_equal :
    (next? (step (withRegs (running [0x36500000]) [(1, 5), (2, 5), (3, 9)]))).map (·.reg 3) = some 0 := by decide

/-- C-4: a taken branch adds its offset and the generic increment. -/
theorem test_bne_taken :
    (next? (exec (.bne 1 0 (-3)) (withRegs { running [] with pc := 3 } [(1, 1)]))).map (·.pc) = some 1 := by decide

/-- C-3: the same register is never unequal to itself. -/
theorem test_bne_not_taken : (next? (exec (.bne 1 1 (-1)) { running [] with pc := 4 })).map (·.pc) = some 5 := by decide

/-- C-9: `J -1` continues at slot 0. -/
theorem test_j_minus_one : (next? (exec (.j (-1)) { running [] with pc := 7 })).map (·.pc) = some 0 := by decide

/-- C-10: `J -2` leaves a negative `pc`, and the next fetch raises PcOutOfRange. -/
theorem test_j_negative :
    (next? (Host.Core.run core 2 (running [0x5000FFFE]))).map (fun s => (s.pc, s.status)) = some (-1, .pcOutOfRange) := by
  decide

/-- E1: `JAL 20` from slot 5. -/
theorem test_jal_link :
    (next? (exec (.jal 20) { running [] with pc := 5 })).map (fun s => (s.reg 7, s.pc)) = some (6, 21) := by decide

/-- LS-7: a stale line is hit although the cache is disabled. -/
theorem test_lw_stale_hit :
    (next? (step { running [0x76000007] with enabled := false, mem := [(7, 9)], cache := [(7, 5)] })).map
      (fun s => (s.reg 3, s.cache)) = some (5, [(7, 5)]) := by decide

/-- LS-5: a negative effective address faults, precisely. -/
theorem test_lw_fault :
    next? (step (running [0x7200FFFF])) =
      some { running [0x7200FFFF] with status := .addressOutOfRange, faultAddr := -1 } := by decide

/-- LS-10: a store under a disabled cache leaves a stale line. -/
theorem test_sw_disabled :
    (next? (step (withRegs { running [0x82000007] with enabled := false, mem := [(7, 5)], cache := [(7, 5)] }
      [(1, 9)]))).map (fun s => (s.mem, s.cache)) = some ([(7, 9)], [(7, 5)]) := by decide

/-- LS-11: the last cell. -/
theorem test_sw_last_cell :
    (next? (step (withRegs (running [0x820000FF]) [(1, 1)]))).map (fun s => (s.mem, s.cache)) =
      some ([(255, 1)], [(255, 1)]) := by decide

/-- S-3: a flush under a disabled cache. -/
theorem test_cache_flush :
    (next? (step { running [0x90000002] with enabled := false, cache := [(7, 5), (9, 1)] })).map
      (fun s => (s.enabled, s.cache)) = some (false, []) := by decide

/-- S-4: any other code is a no-op. -/
theorem test_cache_other_code :
    next? (step { running [0x9000FFFF] with cache := [(7, 5)] }) =
      some { running [0x9000FFFF] with cache := [(7, 5)], pc := 1 } := by decide

/-- S-6: a HALT in the last slot, and its generic increment. -/
theorem test_halt :
    (next? (step (running [0xA0000000]))).map (fun s => (s.running, s.pc, s.status)) =
      some (false, 1, .running) := by decide

/-- S-6 at the next turn: HALTED is tested before EXHAUSTED. -/
theorem test_halted_before_exhausted :
    (next? (step { running [0xA0000000] with running := false, pc := 1 })).map (·.status) = some .halted := by decide

/-- Every word of the opcode map runs as the first instruction after reset. -/
theorem test_table_words_run :
    ∀ row ∈ opcodeTable, (decodeTableWord 32 row.pattern.toNat).isSome ∧
      ((next? (step (State.reset.withFetchWord 32 row.pattern.toNat))).map (·.status)) = some .running := by decide

/-- 10_state.md R37: reset memory lists nothing, which is its canonical form. -/
theorem test_reset_memory : State.reset.mem = [] ∧ Memory.wf State.reset.mem := by decide

/-- H-1: the feed is applied in order, into a disabled cache too. -/
theorem test_init_last_wins :
    (hostInit [(10, 7), (10, 8)] { State.resetWith cfg32 with enabled := false }).toOption.map
      (fun s => (s.mem, s.cache)) = some ([(10, 8)], [(10, 8)]) := by decide

/-- The status codes of 10_state.md R27. -/
theorem test_status_codes :
    [Status.ready, .running, .halted, .exhausted, .malformedInstruction, .unknownInstruction, .addressOutOfRange,
      .pcOutOfRange].map Status.code = [0, 1, 2, 3, 4, 5, 6, 7] := by decide

/-! ### Witnesses: concrete states and operands that meet the hypotheses of each statement -/

/-- The hypotheses of `State.Inv`, decided. -/
theorem inv_of {s : State} (h : Memory.wf s.mem ∧ Cache.wf s.cache ∧ (∀ i, fits s.cfg (s.reg i)) ∧
    (∀ p ∈ s.mem, fits s.cfg p.2) ∧ (∀ p ∈ s.cache, fits s.cfg p.2) ∧ s.program.length ≤ lMax) : s.Inv :=
  ⟨h.1, h.2.1, h.2.2.1, h.2.2.2.1, h.2.2.2.2.1, h.2.2.2.2.2⟩

/-- The hypotheses of `AboutToRun`, decided. -/
theorem aboutToRun_of {s : State} {i : Instr} (h : (s.status = .running ∧ s.running = true) ∧ 0 ≤ s.pc ∧
    s.pc < s.progLen ∧ decodeRecord (s.recordAt s.pc) = .ok i) : AboutToRun s i := h

/-- Coherence, decided over the lines listed. -/
theorem coherent_of {s : State} (h : ∀ p ∈ s.cache, p.2 = Memory.read s.mem p.1) : Coherent s := by
  intro a v ha
  suffices hm : (a, v) ∈ s.cache from h _ hm
  have key : ∀ cs : Cells, Cells.lookup a cs = some v → (a, v) ∈ cs := by
    intro cs
    induction cs with
    | nil => simp [Cells.lookup]
    | cons p cs ih =>
      obtain ⟨b, w⟩ := p
      simp only [Cells.lookup]
      split
      · rintro ⟨⟩
        simp_all
      · exact fun e => List.mem_cons_of_mem _ (ih e)
  exact key _ ha

/-- Literals at both ends of their range (ADDI, BNE, J, JAL, CACHE and the offset of LW and SW). -/
theorem witness_literal_range :
    (-32768 ≤ (-32768 : Int) ∧ (-32768 : Int) ≤ 32767) ∧ (-32768 ≤ (32767 : Int) ∧ (32767 : Int) ≤ 32767) := by decide

theorem witness_AddiWritesWrappedSumWithLiteral :
    decodeText (spell (.addi 1 2 (-32768))) = .ok (.addi 1 2 (-32768)) ∧
    decodeText (spell (.addi 1 2 32767)) = .ok (.addi 1 2 32767) := by decide
theorem witness_BneBranchesWhenRegistersDiffer :
    (withRegs (running []) [(1, 1)]).reg 1 ≠ (withRegs (running []) [(1, 1)]).reg 0 ∧
    (running []).reg 1 = (running []).reg 0 := by decide
theorem witness_JumpContinuesAfterTarget :
    decodeText (spell (.j (-32768))) = .ok (.j (-32768)) ∧ decodeText (spell (.j 32767)) = .ok (.j 32767) := by decide
theorem witness_JumpAndLinkSavesNextIndex :
    decodeText (spell (.jal (-32768))) = .ok (.jal (-32768)) ∧ decodeText (spell (.jal 32767)) = .ok (.jal 32767) := by
  decide

/-- Effective addresses 0 and 255 with a valid line, 0 and 255 without, -1 and 256. -/
theorem witness_LoadReadsCacheThenMemory :
    let s := withRegs { running [] with cache := [(0, 4), (255, 5)] } [(1, 255)]
    let u := withRegs (running []) [(1, 255)]
    (Cache.get s.cache (s.reg 0 + 0).toNat = some 4 ∧ 0 ≤ s.reg 0 + 0) ∧
    (Cache.get s.cache (s.reg 1 + 0).toNat = some 5 ∧ s.reg 1 + 0 < 256) ∧
    (Cache.get u.cache (u.reg 0 + 0).toNat = none ∧ Cache.get u.cache (u.reg 1 + 0).toNat = none) ∧
    s.reg 0 + -1 < 0 ∧ 256 ≤ s.reg 1 + 1 := by decide

theorem witness_StoreWritesMemoryAndEnabledCache :
    let s := withRegs (running []) [(1, 255)]
    (0 ≤ s.reg 0 + 0 ∧ s.reg 0 + 0 < 256) ∧ (0 ≤ s.reg 1 + 0 ∧ s.reg 1 + 0 < 256) ∧
    s.reg 0 + -1 < 0 ∧ 256 ≤ s.reg 1 + 1 := by decide

theorem witness_AccessOutsideMemoryStopsTheRun :
    (effectiveAddress (running [0x7200FFFF]) 0 (-1) < 0 ∧ AboutToRun (running [0x7200FFFF]) (.lw 1 (-1) 0)) ∧
    (256 ≤ effectiveAddress (running [0x82000100]) 0 256 ∧ AboutToRun (running [0x82000100]) (.sw 1 256 0)) :=
  ⟨⟨by decide, aboutToRun_of (by decide)⟩, by decide, aboutToRun_of (by decide)⟩

theorem witness_CacheControlFollowsItsCode :
    ((3 : Int) ≠ 0 ∧ (3 : Int) ≠ 1 ∧ (3 : Int) ≠ 2) ∧ (-1 : Int) ≠ 0 ∧ (-1 : Int) ≠ 1 ∧ (-1 : Int) ≠ 2 := by decide

theorem witness_OnlyDestinationRegisterChanges :
    (∃ t, exec (.add 3 1 2) (running []) = .next t) ∧ destination (.add 3 1 2) ≠ some 1 := ⟨⟨_, rfl⟩, by decide⟩

/-- The cells 0 and 255 stored to, another cell, and an address that stores nothing. -/
theorem witness_OnlyStoredCellChanges :
    let s := withRegs (running []) [(1, 255)]
    Memory.wf s.mem ∧ (∃ t, exec (.sw 1 0 1) s = .next t) ∧ storedCell (.sw 1 0 1) s = some 255 ∧
      storedCell (.sw 1 0 0) s = some 0 ∧ storedCell (.sw 1 0 1) s ≠ some 0 ∧ storedCell (.sw 1 1 1) s = none :=
  ⟨by decide, ⟨_, rfl⟩, by decide, by decide, by decide, by decide⟩

/-- Accesses at 256 and -1, accesses in range at 0 and 255 and an instruction without one, and a line no access
touches. -/
theorem witness_ControlStateFrame :
    let s := withRegs (running []) [(1, 255)]
    (∃ t, exec (.lw 2 1 1) s = .next t ∧ dataAddress (.lw 2 1 1) s = some 256) ∧
    (∃ t, exec (.sw 2 (-1) 0) s = .next t ∧ dataAddress (.sw 2 (-1) 0) s = some (-1)) ∧
    (∃ t, exec (.lw 2 0 1) s = .next t ∧ dataAddress (.lw 2 0 1) s = some 255) ∧
    (∃ t, exec (.sw 2 0 0) s = .next t ∧ dataAddress (.sw 2 0 0) s = some 0) ∧
    (∃ t, exec .halt s = .next t ∧ dataAddress .halt s = none) ∧ accessedCell (.lw 2 0 1) s ≠ some 0 :=
  ⟨⟨_, rfl, by decide⟩, ⟨_, rfl, by decide⟩, ⟨_, rfl, by decide⟩, ⟨_, rfl, by decide⟩, ⟨_, rfl, rfl⟩, by decide⟩

theorem witness_MemoryWriteIsTotalReplace : Memory.wf [(0, 7), (255, -1)] := by decide

theorem witness_CanonicalMemoriesReadingAlikeAreEqual :
    ∃ m₁ m₂ : Memory, Memory.wf m₁ ∧ Memory.wf m₂ ∧ ∀ a, Memory.read m₁ a = Memory.read m₂ a :=
  ⟨[(3, 1)], Memory.write (Memory.write [(3, 1)] 4 9) 4 0, by decide, by decide, fun _ => rfl⟩

/-- The least and the greatest pattern of `XLEN = 16`, each congruent to an integer outside the range. -/
theorem witness_WrapIsTheCongruentPattern :
    fits cfg16 (-32768) ∧ (2 ^ cfg16.xlen : Int) ∣ -32768 - 32768 ∧ fits cfg16 32767 ∧
      (2 ^ cfg16.xlen : Int) ∣ 32767 - -32769 := by decide

theorem witness_LinkValueNeedsNoWrap :
    (running [0x60000014]).Inv ∧ AboutToRun (running [0x60000014]) (.jal 20) :=
  ⟨inv_of (by decide), aboutToRun_of (by decide)⟩

/-- A packed record and an assembler line. -/
theorem witness_StepRunsDecodedInstruction :
    AboutToRun (running [0x06500000]) (.add 3 1 2) ∧ AboutToRun (runningLine "ADD R3,R1,R2") (.add 3 1 2) :=
  ⟨aboutToRun_of (by decide), aboutToRun_of (by decide)⟩

/-- HALTED at `pc = L`, EXHAUSTED at `pc = L`, PcOutOfRange at `pc = -1`. -/
theorem witness_LoopChecksBeforeAStep :
    (∃ s : State, s.status = .running ∧ s.running = false ∧ s.progLen ≤ s.pc) ∧
    (∃ s : State, s.status = .running ∧ s.running = true ∧ s.progLen = s.pc) ∧
    ∃ s : State, s.status = .running ∧ s.running = true ∧ s.pc < s.progLen ∧ s.pc = -1 :=
  ⟨⟨{ running [0xA0000000] with running := false, pc := 1 }, by decide⟩,
    ⟨{ running [0xA0000000] with pc := 1 }, by decide⟩, ⟨{ running [0xA0000000] with pc := -1 }, by decide⟩⟩

theorem witness_DecodeFaultWritesOnlyStatus :
    (∃ s : State, (s.status = .running ∧ s.running = true) ∧ 0 ≤ s.pc ∧ s.pc < s.progLen ∧
      decodeRecord (s.recordAt s.pc) = .error .unknownInstruction) ∧
    ∃ s : State, (s.status = .running ∧ s.running = true) ∧ 0 ≤ s.pc ∧ s.pc < s.progLen ∧
      decodeRecord (s.recordAt s.pc) = .error .malformedInstruction :=
  ⟨⟨running [0xB0000000], by decide⟩, ⟨running [0xA0000001], by decide⟩⟩

/-- Each of the four fault statuses arises from a step of a run. -/
theorem witness_FaultsArePrecise :
    (∃ t, step (running [0xA0000001]) = .next t ∧ t.status = .malformedInstruction) ∧
    (∃ t, step (running [0xB0000000]) = .next t ∧ t.status = .unknownInstruction) ∧
    (∃ t, step (running [0x7200FFFF]) = .next t ∧ t.status = .addressOutOfRange) ∧
    ∃ t, step { running [0] with pc := -1 } = .next t ∧ t.status = .pcOutOfRange :=
  ⟨⟨_, rfl, by decide⟩, ⟨_, rfl, by decide⟩, ⟨_, rfl, by decide⟩, _, rfl, by decide⟩

theorem witness_GenericIncrementEndsEveryStep :
    (∃ t, step (running [0x50000014]) = .next t ∧ t.status = .running ∧ t.pc = 21) ∧
    ∃ t, step (running [0x7200FFFF]) = .next t ∧ t.status.isFault = true :=
  ⟨⟨_, rfl, by decide, by decide⟩, _, rfl, by decide⟩

theorem witness_StoppedEngineStaysAsItIs :
    (State.resetWith cfg32).status ≠ .running ∧ Status.halted ≠ .running ∧ Status.pcOutOfRange ≠ .running := by decide

theorem witness_StepsNeverChangeTheProgram : ∃ t, step (running [0x82000007]) = .next t := ⟨_, rfl⟩

theorem witness_OnlyHaltClearsRunning :
    ∃ t, step (running [0xA0000000]) = .next t ∧ t.running ≠ (running [0xA0000000]).running := ⟨_, rfl, by decide⟩

/-- The empty program, and a program of one BNE that is not taken. -/
theorem witness_StraightLineRunExhausts :
    (∃ s : State, Executing s ∧ s.pc = 0 ∧ s.program.length = 0) ∧
    ∃ s : State, Executing s ∧ s.pc = 0 ∧ s.program.length = 1 ∧
      (∀ k a i, k < 1 → Host.Core.run Sys2Proof.core k s = .next a → AboutToRun a i →
        i ≠ .halt ∧ nextPc i a = a.pc + 1) ∧
      ∀ k t, k ≤ 1 → Host.Core.run Sys2Proof.core k s = .next t → t.status = .running := by
  refine ⟨⟨running [], ⟨rfl, rfl⟩, rfl, rfl⟩, running [0x4240FFFF], ⟨rfl, rfl⟩, rfl, rfl, ?_, ?_⟩
  · intro k a i hk hr hi
    interval_cases k
    cases hr
    have hd : decodeRecord ((running [0x4240FFFF]).recordAt (running [0x4240FFFF]).pc) = .ok (.bne 1 1 (-1)) := by
      decide
    have he := hi.2.2.2
    rw [hd] at he
    cases he
    decide
  · intro k t hk hr
    interval_cases k
    · cases hr; rfl
    · have h1 : Host.Core.run Sys2Proof.core 1 (running [0x4240FFFF]) =
          exec (.bne 1 1 (-1)) (running [0x4240FFFF]) := rfl
      rw [h1] at hr
      cases hr
      rfl

theorem witness_StepKeepsInvariant :
    (withRegs (running [0x82000007]) [(1, -5)]).Inv ∧
      ∃ t, step (withRegs (running [0x82000007]) [(1, -5)]) = .next t := ⟨inv_of (by decide), _, rfl⟩

/-- Each of the four host operations goes through. -/
theorem witness_HostOperationsKeepInvariant :
    (State.resetWith cfg32).Inv ∧ (∃ t, hostApply .powerOn (State.resetWith cfg32) = .ok t) ∧
    (∃ t, hostApply (.init [(0, 2147483647), (255, -2147483648)]) (State.resetWith cfg32) = .ok t) ∧
    (∃ t, hostApply (.load [.text "HALT"]) (State.resetWith cfg32) = .ok t) ∧
    ∃ t, hostApply .runStart (State.resetWith cfg32) = .ok t :=
  ⟨inv_of (by decide), ⟨_, rfl⟩, ⟨_, rfl⟩, ⟨_, rfl⟩, _, rfl⟩

/-- Both ends of the range of `pc`. -/
theorem witness_ProgramCounterStaysReachable :
    (∃ s t : State, s.program.length ≤ lMax ∧ (-32767 ≤ s.pc ∧ s.pc ≤ 65534) ∧ s.pc = -32767 ∧ step s = .next t) ∧
    ∃ s t : State, s.program.length ≤ lMax ∧ (-32767 ≤ s.pc ∧ s.pc ≤ 65534) ∧ s.pc = 65534 ∧ step s = .next t :=
  ⟨⟨{ running [0] with pc := -32767 }, _, by decide, by decide, rfl, rfl⟩,
    ⟨{ running [0] with pc := 65534 }, _, by decide, by decide, rfl, rfl⟩⟩

theorem witness_RunningFlagTellsTheStopsApart :
    ∃ s t : State, ((s.status = .halted → s.running = false) ∧ (s.status = .exhausted → s.running = true)) ∧
      step s = .next t ∧ t.status = .halted :=
  ⟨{ running [] with running := false }, _, by decide, rfl, rfl⟩

/-- A coherent state in which an SW is the store that breaks coherence, and one in which it is not. -/
theorem witness_OnlyDisabledStoresBreakCoherence :
    let s := withRegs { running [] with mem := [(7, 5)], cache := [(7, 5)], enabled := false } [(1, 9)]
    let u := { s with enabled := true }
    (s.Inv ∧ Coherent s ∧ (∃ t, exec (.sw 1 7 0) s = .next t) ∧ DisabledStaleStore (.sw 1 7 0) s) ∧
    u.Inv ∧ Coherent u ∧ (∃ t, exec (.sw 1 7 0) u = .next t) ∧ u.enabled = true :=
  ⟨⟨inv_of (by decide), coherent_of (by decide), ⟨_, rfl⟩, 1, 7, 0, 5, rfl, by decide, rfl, by decide, by decide⟩,
    inv_of (by decide), coherent_of (by decide), ⟨_, rfl⟩, rfl⟩

/-- A run start that breaks coherence, on an engine that clears the memory alone, and one that keeps it. -/
theorem witness_OnlyHalfResettingRunStartBreaksCoherence :
    let s := { State.resetWith ⟨16, true, true, false⟩ with mem := [(5, 3)], cache := [(5, 3)] }
    let u := { s with cfg := cfg32 }
    (s.Inv ∧ Coherent s ∧ (∃ t, hostApply .runStart s = .ok t) ∧ Cache.get s.cache 5 = some 3) ∧
    u.Inv ∧ Coherent u ∧ ∃ t, hostApply .runStart u = .ok t :=
  ⟨⟨inv_of (by decide), coherent_of (by decide), ⟨_, rfl⟩, by decide⟩,
    inv_of (by decide), coherent_of (by decide), _, rfl⟩

/-- The line survives an SW under a disabled cache; it goes at a CACHE 2 and changes at an SW under an enabled one. -/
theorem witness_ValidLinePersists :
    (∃ t, step { running [0x82000007] with enabled := false, cache := [(7, 5)] } = .next t ∧
      Cache.get t.cache 7 = some 5) ∧
    (∃ t, step { running [0x90000002] with cache := [(7, 5)] } = .next t ∧ Cache.get t.cache 7 = none) ∧
    ∃ t, step { running [0x82000007] with cache := [(7, 5)] } = .next t ∧ Cache.get t.cache 7 = some 0 :=
  ⟨⟨_, rfl, by decide⟩, ⟨_, rfl, by decide⟩, _, rfl, by decide⟩

/-- Two coherent states, one with a line and one without, one enabled and one not. -/
theorem witness_CoherentCacheIsInvisible :
    let s := { running [] with mem := [(7, 5)], cache := [(7, 5)] }
    let u := { s with cache := [], enabled := false }
    AgreeButCache s u ∧ Coherent s ∧ Coherent u ∧ (∃ t, exec (.lw 1 7 0) s = .next t) ∧
      ∃ v, exec (.lw 1 7 0) u = .next v :=
  ⟨rfl, coherent_of (by decide), coherent_of (by decide), ⟨_, rfl⟩, _, rfl⟩

/-- A store to the last cell and a load of it through another base. -/
theorem witness_LoadAfterEnabledStoreReturnsTheValue :
    let s := withRegs (running []) [(1, 11), (2, 255)]
    s.Inv ∧ s.enabled = true ∧ storedCell (.sw 1 255 0) s ≠ none ∧
      ∃ t, exec (.sw 1 255 0) s = .next t ∧ effectiveAddress t 2 0 = effectiveAddress s 0 255 ∧
        ∃ u, exec (.lw 3 0 2) t = .next u :=
  ⟨inv_of (by decide), rfl, by decide, _, rfl, by decide, _, rfl⟩

theorem witness_LoadAfterFlushReadsMemory :
    let s := { running [] with mem := [(7, 9)], cache := [(7, 5)] }
    ∃ t, exec (.cache 2) s = .next t ∧ accessedCell (.lw 4 7 0) t = some 7 ∧ ∃ u, exec (.lw 4 7 0) t = .next u :=
  ⟨_, rfl, by decide, _, rfl⟩

/-- One ADD whose sum fits both widths. -/
theorem witness_RunIsIndependentOfSufficientWidth :
    let s := withRegs (running [0x06500000]) [(1, 5), (2, 7)]
    let u := { s with cfg := cfg16 }
    AgreeButParameters s u ∧
    (∀ k a i r, k < 1 → Host.Core.run Sys2Proof.core k s = .next a → AboutToRun a i →
      exactResult i a = some r → fits s.cfg r ∧ fits u.cfg r) ∧
    ∃ t, Host.Core.run Sys2Proof.core 1 s = .next t := by
  refine ⟨rfl, ?_, _, rfl⟩
  intro k a i r hk hr ha he
  have h0 : k = 0 := by omega
  subst h0
  cases hr
  have hd : decodeRecord ((withRegs (running [0x06500000]) [(1, 5), (2, 7)]).recordAt 0) = .ok (.add 3 1 2) := by
    decide
  have hi := ha.2.2.2
  have hpc : (withRegs (running [0x06500000]) [(1, 5), (2, 7)]).pc = 0 := rfl
  rw [hpc, hd] at hi
  cases hi
  cases he
  decide

theorem witness_DecodeInvertsEncode :
    (Instr.lw 7 (-32768) 6).wellFormed = true ∧ (Instr.sw 7 32767 6).wellFormed = true := by decide
theorem witness_EncodeInvertsDecode : ∃ i, decodeWord 0x7FBF8000 = .error .malformedInstruction ∧
    decodeWord 0x7F808000 = .ok i := ⟨.lw 7 (-32768) 6, by decide, by decide⟩
theorem witness_WordFaultsByTagThenReservedBits :
    11 ≤ (0xB0000000 : PackedWord).toNat / 2 ^ 28 ∧ (0xA0000001 : PackedWord).toNat / 2 ^ 28 < 11 ∧
    ∀ row ∈ opcodeTable, (0xA0000001 : PackedWord) &&& row.mask ≠ row.pattern := by decide

/-- A tab before and two spaces after, with the extreme literals. -/
theorem witness_TextDecodeInvertsSpelling :
    (Instr.lw 7 (-32768) 6).wellFormed = true ∧ ['\t'].all isWs = true ∧ [' ', ' '].all isWs = true ∧
    decodeText (['\t'] ++ spell (.lw 7 (-32768) 6) ++ [' ', ' ']) = .ok (.lw 7 (-32768) 6) := by decide

theorem witness_TextAndWordNameTheSameInstructions :
    (∃ line, decodeText line = .ok (.sw 2 55 1)) ∧ ∃ w, decodeWord w = .ok (.sw 2 55 1) :=
  ⟨⟨"SW R2,55(R1)".toList, by decide⟩, 0x84400037, by decide⟩

/-- The values 7 (with leading zeros) and 8, beside literals at both ends of their range (`witness_literal_range`). -/
theorem witness_RegisterTokenNamesItsDecimalValue :
    (DigitRun "007".toList ∧ digitsValue "007".toList < 8) ∧ DigitRun "8".toList ∧ 8 ≤ digitsValue "8".toList :=
  ⟨⟨⟨by decide, by decide⟩, by decide⟩, ⟨by decide, by decide⟩, by decide⟩

/-- The values 32767, 32768 and 32769, the last with leading zeros. -/
theorem witness_LiteralTokenNamesItsSignedValue :
    (DigitRun "32767".toList ∧ digitsValue "32767".toList = 32767) ∧
    (DigitRun "32768".toList ∧ digitsValue "32768".toList = 32768) ∧
    DigitRun "0032769".toList ∧ digitsValue "0032769".toList = 32769 :=
  ⟨⟨⟨by decide, by decide⟩, by decide⟩, ⟨⟨by decide, by decide⟩, by decide⟩, ⟨by decide, by decide⟩, by decide⟩

theorem witness_BlankRecordIsMalformedWhenFetched :
    ∀ line ∈ ["", " \t "], ((runningLine line).status = .running ∧ (runningLine line).running = true) ∧
      0 ≤ (runningLine line).pc ∧ (runningLine line).pc < (runningLine line).progLen ∧
      (runningLine line).recordAt (runningLine line).pc = .text line ∧ line.toList.all isWs = true := by decide

/-- `add R1,R2,R3` (D-4): the mnemonic and what follows it. -/
theorem witness_UnknownMnemonicIsJudgedFirst :
    "add".toList ≠ [] ∧ "add".toList.all inMnemonic = true ∧ (∀ op ∈ Op.all, op.mnemonic.toList ≠ "add".toList) ∧
    (" R1,R2,R3".toList.head? = some ' ' ∧ inMnemonic ' ' = false) ∧ ([] : List Char).head? = none := by decide

theorem witness_RunStartResetsPcAndRunning :
    (running []).status = .running ∧ (State.resetWith cfg32).status ≠ .running := by decide

/-- Addresses -1 and 256, a value just outside the range, and a feed at both ends of both ranges. -/
theorem witness_InitialisationFeedWritesMemoryAndCache :
    (State.resetWith cfg32).Inv ∧ (State.resetWith cfg32).status ≠ .running ∧
    (∃ p ∈ [((1 : Int), (1 : Int)), (256, 2)], ¬ (0 ≤ p.1 ∧ p.1 < 256)) ∧
    (∃ p ∈ [((-1 : Int), (1 : Int))], ¬ (0 ≤ p.1 ∧ p.1 < 256)) ∧
    (∀ p ∈ [((1 : Int), (1 : Int)), (256, 2), (-1, 1)], fits cfg32 p.2) ∧
    ((∀ p ∈ [((1 : Int), (2147483648 : Int))], 0 ≤ p.1 ∧ p.1 < 256) ∧
      ∃ p ∈ [((1 : Int), (2147483648 : Int))], ¬ fits cfg32 p.2) ∧
    (∀ p ∈ [((0 : Int), (-2147483648 : Int)), (255, 2147483647)], 0 ≤ p.1 ∧ p.1 < 256) ∧
    ∀ p ∈ [((0 : Int), (-2147483648 : Int)), (255, 2147483647)], fits cfg32 p.2 :=
  ⟨inv_of (by decide), by decide, by decide, by decide, by decide, by decide, by decide, by decide⟩

theorem length_replicate_le (n : Nat) (r : Record) : (List.replicate n r).length ≤ n := by simp

theorem lt_length_replicate_succ (n : Nat) (r : Record) : n < (List.replicate (n + 1) r).length := by simp

/-- Programs of 32767 and of 32768 records. -/
theorem witness_ProgramFeedReplacesTheStore :
    (State.resetWith cfg32).status ≠ .running ∧ (List.replicate 32767 (Record.text "HALT")).length ≤ 32767 ∧
    32767 < (List.replicate (32767 + 1) (Record.text "HALT")).length :=
  ⟨by decide, length_replicate_le _ _, lt_length_replicate_succ _ _⟩

theorem witness_SnapshotShowsRegistersAndNonZeroCells :
    let s := { State.resetWith cfg32 with mem := [(0, 4), (255, -1)] }
    s.Inv ∧ s.status ≠ .running := ⟨inv_of (by decide), by decide⟩

theorem witness_MoreFuelNeverChangesAStop :
    ∃ t, hostRun 3 { State.resetWith cfg32 with program := [.packed 0xA0000000] } = .ok (.stopped .halted t) := ⟨_, rfl⟩

/-- HALTED, EXHAUSTED and a fault (program `SW R1,256(R0)`). -/
theorem witness_RunEndsOnlyAtAStop :
    (∃ t, hostRun 2 { State.resetWith cfg32 with program := [.packed 0xA0000000] } = .ok (.stopped .halted t)) ∧
    (∃ t, hostRun 1 (State.resetWith cfg32) = .ok (.stopped .exhausted t)) ∧
    ∃ t, hostRun 1 { State.resetWith cfg32 with program := [.packed 0x82000100] } =
      .ok (.stopped (.fault (.addressOutOfRange 256) 0) t) :=
  ⟨⟨_, rfl⟩, ⟨_, rfl⟩, _, rfl⟩

end Sys2Proof.Tests
end

section
/-! Power-on reset (10_state.md R37, 70_reset_and_hazards.md R250): the value of each field of `State.resetWith`. -/

namespace Sys2Proof.Machine

@[simp] theorem State.resetWith_cfg (c : Config) : (State.resetWith c).cfg = c := rfl

@[simp] theorem State.resetWith_reg (c : Config) (r : Reg) : (State.resetWith c).reg r = 0 :=
  Vector.getElem_replicate r.isLt

@[simp] theorem State.resetWith_pc (c : Config) : (State.resetWith c).pc = 0 := rfl

@[simp] theorem State.resetWith_running (c : Config) : (State.resetWith c).running = true := rfl

@[simp] theorem State.resetWith_status (c : Config) : (State.resetWith c).status = .ready := rfl

@[simp] theorem State.resetWith_faultAddr (c : Config) : (State.resetWith c).faultAddr = 0 := rfl

@[simp] theorem State.resetWith_enabled (c : Config) :
    (State.resetWith c).enabled = c.cacheEnabledAtReset := rfl

@[simp] theorem State.resetWith_mem (c : Config) : (State.resetWith c).mem = [] := rfl

@[simp] theorem State.resetWith_cache (c : Config) : (State.resetWith c).cache = [] := rfl

@[simp] theorem State.resetWith_program (c : Config) : (State.resetWith c).program = [] := rfl

/-- Settles O31, field by field: a memory and a cache that list nothing read as zero and as invalid everywhere. -/
theorem powerOnResetState : Obligations.PowerOnResetState := by
  intro c
  have hmem : ∀ a, Memory.read (State.resetWith c).mem a = 0 := fun a => by
    rw [State.resetWith_mem, Memory.read_nil]
  have hcache : ∀ a, Cache.get (State.resetWith c).cache a = none := fun a => by
    rw [State.resetWith_cache, Cache.get_nil]
  exact ⟨State.resetWith_reg c, hmem, hcache, State.resetWith_enabled c, State.resetWith_pc c,
    State.resetWith_running c, State.resetWith_status c, State.resetWith_faultAddr c,
    State.resetWith_program c, State.runStart_regs⟩

end Sys2Proof.Machine
end

section
/-! The MemoryBus and the cache (20_memory.md R50, R51, R55 to R58). -/

namespace Sys2Proof.Machine

/-- What a memory reads as after a write, at the written address and elsewhere. Writing the default erases the entry,
which uncovers no second entry for its address because the addresses rise; any other value is inserted. -/
theorem Memory.read_write {m : Memory} (h : Memory.wf m) (a : Nat) (v : Word) (b : Nat) :
    Memory.read (Memory.write m a v) b = if b = a then v else Memory.read m b := by
  obtain ⟨⟨hrising, -⟩, -⟩ := h
  unfold Memory.read Memory.write
  split
  · next hv =>
    rw [Cells.lookup_erase a b hrising]
    split
    · exact hv.symm
    · rfl
  · rw [Cells.lookup_insert]
    split <;> rfl

/-- Settles O16. -/
theorem memoryWriteIsTotalReplace : Obligations.MemoryWriteIsTotalReplace :=
  fun _ a v b h => Memory.read_write h a v b

/-- Settles O18: a fill acts on its own line (`Cache.get_fill`), the state operations write the cache alone by
definition, and the flushed cache holds no line. -/
theorem cacheOperationsActOnTheirLines : Obligations.CacheOperationsActOnTheirLines :=
  ⟨fun c a v b => Cache.get_fill c a b v,
    fun _ _ _ => ⟨rfl, rfl, Cache.flushed, rfl, Cache.get_flushed⟩⟩

end Sys2Proof.Machine
end

section
/-! One turn of the run loop (40_execution_cycle.md R113, R120 to R123): the stop checks before a step, and the generic
increment after it. -/

namespace Sys2Proof.Machine

/-- While a run is in progress a step of the engine is a turn of the run loop. -/
theorem step_of_running {s : State} (hs : s.status = .running) : step s = loopTurn s := if_pos hs

/-- The first stop check: `running`, whatever `pc`. -/
theorem loopTurn_of_not_running {s : State} (hr : s.running = false) :
    loopTurn s = .next { s with status := .halted } := if_pos hr

/-- The second stop check: `pc >= L`. -/
theorem loopTurn_of_progLen_le {s : State} (hr : s.running = true) (hl : s.progLen ≤ s.pc) :
    loopTurn s = .next { s with status := .exhausted } := by
  simp [loopTurn, hr, hl]

/-- Past both stop checks the turn is a step. -/
theorem loopTurn_of_lt_progLen {s : State} (hr : s.running = true) (hl : s.pc < s.progLen) :
    loopTurn s = stepInstruction s := by
  simp [loopTurn, hr, not_le.2 hl]

/-- The fetch at a negative `pc` faults. -/
theorem stepInstruction_of_neg_pc {s : State} (h0 : s.pc < 0) :
    stepInstruction s = .next (s.takeFault .pcOutOfRange) := by
  simp [stepInstruction, State.fetch, h0]

/-- Settles O22, one rule of the turn for each clause; taking PcOutOfRange writes the status alone. -/
theorem loopChecksBeforeAStep : Obligations.LoopChecksBeforeAStep := by
  intro s hs
  rw [step_of_running hs]
  refine ⟨loopTurn_of_not_running, loopTurn_of_progLen_le, fun hr hl h0 => ?_⟩
  rw [loopTurn_of_lt_progLen hr hl, stepInstruction_of_neg_pc h0]
  rfl

/-- A fault ends the run. -/
theorem takeFault_status_ne_running (s : State) (k : FaultKind) : (s.takeFault k).status ≠ .running :=
  faultStatus_ne_running k

/-- A step of a run either completes an instruction, its handler and then the generic increment, or it ends the run
and keeps `pc`. -/
theorem step_completes_or_stops {s t : State} (hs : s.status = .running) (h : step s = .next t) :
    (∃ i, AboutToRun s i ∧ t = (handled i s).advance) ∨ (t.status ≠ .running ∧ t.pc = s.pc) := by
  rcases step_cases h with ⟨hidle, -⟩ | ⟨-, -, rfl⟩ | ⟨-, -, rfl⟩ | ⟨-, -, -, rfl⟩ | ⟨-, -, -, e, -, rfl⟩ |
    ⟨i, hi, hx⟩
  · exact absurd hs hidle
  · exact .inr ⟨nofun, rfl⟩
  · exact .inr ⟨nofun, rfl⟩
  · exact .inr ⟨takeFault_status_ne_running _ _, rfl⟩
  · exact .inr ⟨takeFault_status_ne_running _ _, rfl⟩
  · rcases exec_cases hx with ⟨-, rfl⟩ | ⟨ea, -, -, rfl⟩
    · exact .inl ⟨i, hi, rfl⟩
    · exact .inr ⟨takeFault_status_ne_running _ _, rfl⟩

/-- Settles O25: a completed instruction leaves status RUNNING, which is no fault status, and `pc` at `nextPc`; every
other step of a run leaves another status and keeps `pc`. -/
theorem genericIncrementEndsEveryStep : Obligations.GenericIncrementEndsEveryStep := by
  intro s t hs h
  rcases step_completes_or_stops hs h with ⟨i, hi, rfl⟩ | ⟨hstop, hpc⟩
  · have hrun : (handled i s).advance.status = .running := by simp [hs]
    refine ⟨fun _ => ⟨i, hi, handled_advance_pc i s⟩, fun hfault => ?_⟩
    rw [hrun] at hfault
    cases hfault
  · exact ⟨fun hrun => absurd hrun hstop, fun _ => hpc⟩

end Sys2Proof.Machine
end

section
/-! The program feed (40_execution_cycle.md R132). -/

namespace Sys2Proof.Machine

/-- A list longer than `L_MAX` is rejected. -/
theorem hostLoad_of_tooLong {records : List Record} {s : State} (hs : s.status ≠ .running)
    (hlen : lMax < records.length) : hostLoad records s = .error .programTooLong := by
  simp [hostLoad, hs, hlen]

/-- A list of at most `L_MAX` records becomes the instruction store. -/
theorem hostLoad_of_length_le {records : List Record} {s : State} (hs : s.status ≠ .running)
    (hlen : records.length ≤ lMax) : hostLoad records s = .ok { s with program := records } := by
  simp [hostLoad, hs, not_lt.2 hlen]

/-- Settles O57: `L` is the length of the new store by its definition. -/
theorem programFeedReplacesTheStore : Obligations.ProgramFeedReplacesTheStore :=
  fun _ _ hs => ⟨hostLoad_of_tooLong hs, fun hlen => ⟨_, hostLoad_of_length_le hs hlen, rfl, rfl⟩⟩

end Sys2Proof.Machine
end

section
/-! The initialisation feed (40_execution_cycle.md R131): when it is rejected, and what an accepted one leaves. -/

namespace Sys2Proof.Machine

/-! ### The checks -/

theorem hostInit_of_badAddress {pairs : List (Int × Int)} {s : State} (hs : s.status ≠ .running)
    (hbad : ∃ p ∈ pairs, ¬ inMemory p.1) : hostInit pairs s = .error .addressOutOfRange := by
  rw [hostInit, if_neg hs, if_pos hbad]

theorem hostInit_of_badValue {pairs : List (Int × Int)} {s : State} (hs : s.status ≠ .running)
    (haddr : ¬ ∃ p ∈ pairs, ¬ inMemory p.1) (hbad : ∃ p ∈ pairs, ¬ fits s.cfg p.2) :
    hostInit pairs s = .error .initValueOutOfRange := by
  rw [hostInit, if_neg hs, if_neg haddr, if_pos hbad]

theorem hostInit_of_checked {pairs : List (Int × Int)} {s : State} (hs : s.status ≠ .running)
    (haddr : ∀ p ∈ pairs, inMemory p.1) (hval : ∀ p ∈ pairs, fits s.cfg p.2) :
    hostInit pairs s = .ok (initPairs s pairs) := by
  have hno : ¬ ∃ p ∈ pairs, ¬ inMemory p.1 := fun ⟨p, hp, hbad⟩ => hbad (haddr p hp)
  have hno' : ¬ ∃ p ∈ pairs, ¬ fits s.cfg p.2 := fun ⟨p, hp, hbad⟩ => hbad (hval p hp)
  rw [hostInit, if_neg hs, if_neg hno, if_neg hno']

/-! ### The writes -/

/-- One pair writes its value to the MemoryBus and to the cache, and `wrap` leaves a value in range as it is. -/
theorem initPair_of_fits {s : State} {n : Int} (a : Nat) (hn : fits s.cfg n) :
    initPair s a n = { s with mem := Memory.write s.mem a n, cache := Cache.fill s.cache a n } := by
  rw [initPair, wrap_of_fits hn]
  rfl

theorem initPairs_cons (s : State) (p : Int × Int) (pairs : List (Int × Int)) :
    initPairs s (p :: pairs) = initPairs (initPair s p.1.toNat p.2) pairs := rfl

/-- A first pair counts only for its own address, and there only when no later pair names it. -/
theorem lastInit_cons (p : Int × Int) (pairs : List (Int × Int)) (a : Nat) :
    lastInit (p :: pairs) a = (lastInit pairs a).orElse (fun _ => if p.1 = a then some p.2 else none) := by
  unfold lastInit
  rw [List.reverse_cons, List.find?_append]
  cases pairs.reverse.find? (fun q => q.1 == (a : Int)) with
  | some q => rfl
  | none => by_cases h : p.1 = a <;> simp [h]

/-- The pairs of a checked feed write the MemoryBus and the cache alone, and leave at each address the last value given
for it. -/
theorem initPairs_of_checked {pairs : List (Int × Int)} {s : State} (hwf : Memory.wf s.mem)
    (haddr : ∀ p ∈ pairs, inMemory p.1) (hval : ∀ p ∈ pairs, fits s.cfg p.2) :
    ∃ m c, initPairs s pairs = { s with mem := m, cache := c } ∧
      (∀ a, Memory.read m a = (lastInit pairs a).getD (Memory.read s.mem a)) ∧
      ∀ a, Cache.get c a = (lastInit pairs a).orElse (fun _ => Cache.get s.cache a) := by
  induction pairs generalizing s with
  | nil => exact ⟨s.mem, s.cache, rfl, fun _ => rfl, fun _ => rfl⟩
  | cons p pairs ih =>
    obtain ⟨⟨h0, hlt⟩, haddr'⟩ := List.forall_mem_cons.1 haddr
    obtain ⟨hfit, hval'⟩ := List.forall_mem_cons.1 hval
    have hcell : p.1.toNat < memCells := by omega
    have hsame : ∀ a : Nat, a = p.1.toNat ↔ p.1 = a := fun a => by omega
    rw [initPairs_cons, initPair_of_fits _ hfit]
    obtain ⟨m, c, hm, hread, hget⟩ := ih (s := { s with
      mem := Memory.write s.mem p.1.toNat p.2, cache := Cache.fill s.cache p.1.toNat p.2 })
      (Memory.write_wf hwf p.2 hcell) haddr' hval'
    refine ⟨m, c, hm, fun a => ?_, fun a => ?_⟩
    · rw [hread, lastInit_cons, Memory.read_write hwf]
      cases lastInit pairs a with
      | some n => rfl
      | none => by_cases h : p.1 = a <;> simp [hsame, h]
    · rw [hget, lastInit_cons, Cache.get_fill]
      cases lastInit pairs a with
      | some n => rfl
      | none => by_cases h : p.1 = a <;> simp [hsame, h]

/-- Settles O56: the addresses are judged before the values, so the two rejections and the accepted feed are the three
rules of the checks. -/
theorem initialisationFeedWritesMemoryAndCache : Obligations.InitialisationFeedWritesMemoryAndCache := by
  intro pairs s hinv hs
  refine ⟨fun hbad => ⟨_, hostInit_of_badAddress hs hbad, fun _ => rfl⟩, fun hbad => ?_, fun haddr hval => ?_⟩
  · by_cases haddr : ∃ p ∈ pairs, ¬ inMemory p.1
    · obtain ⟨p, hp, hout⟩ := haddr
      exact ⟨_, hostInit_of_badAddress hs ⟨p, hp, hout⟩, fun hin => absurd (hin p hp) hout⟩
    · exact ⟨_, hostInit_of_badValue hs haddr hbad, fun _ => rfl⟩
  · rw [hostInit_of_checked hs haddr hval]
    obtain ⟨m, c, hinit, hread, hget⟩ := initPairs_of_checked hinv.mem_wf haddr hval
    exact ⟨m, c, congrArg Except.ok hinit, hread, hget⟩

end Sys2Proof.Machine
end

section
/-! The snapshot (40_execution_cycle.md R134). -/

namespace Sys2Proof.Machine

/-- A memory in canonical form lists exactly its cells that do not read as zero, each with what it reads as. -/
theorem Memory.mem_iff_read {m : Memory} (h : Memory.wf m) (a : Nat) (v : Word) :
    (a, v) ∈ m ↔ a < memCells ∧ v = Memory.read m a ∧ v ≠ memDefault := by
  obtain ⟨⟨hrising, hcells⟩, hnonzero⟩ := h
  constructor
  · intro hmem
    have hread : Memory.read m a = v := by simp [Memory.read, Cells.lookup_of_mem hrising hmem]
    exact ⟨hcells _ hmem, hread.symm, hnonzero _ hmem⟩
  · rintro ⟨-, rfl, hv⟩
    unfold Memory.read at hv ⊢
    cases hl : Cells.lookup a m with
    | none => simp [hl] at hv
    | some w => exact Cells.mem_of_lookup hl

/-- The snapshot's register list holds each register's value at its index. -/
theorem snapshot_registers_getElem? (s : State) (r : Reg) : s.snapshot.registers[r.val]? = some (s.reg r) := by
  have hlen : r.val < s.regs.toList.length := by simp
  rw [State.snapshot, List.getElem?_eq_getElem hlen, Vector.getElem_toList]
  rfl

/-- Settles O58: the snapshot shows the MemoryBus as the model lists it, which is rising and lists just the non-zero
cells. -/
theorem snapshotShowsRegistersAndNonZeroCells : Obligations.SnapshotShowsRegistersAndNonZeroCells :=
  fun s hinv => ⟨snapshot_registers_getElem? s, Vector.length_toList, Memory.mem_iff_read hinv.mem_wf,
    hinv.mem_wf.1.1, rfl, rfl, rfl, rfl, fun hs => if_neg hs⟩

end Sys2Proof.Machine
end

section
/-! The packed words of each opcode (30_encoding.md R88, R93, R98): a row's mask is the tag field beside the bits its
format reserves, so its pattern holds in a word exactly when the word decodes to the row's opcode. -/

namespace Sys2Proof

open Machine

/-- A word decodes to an opcode's instruction exactly when it has the opcode's tag and nothing in its reserved bits. -/
theorem decodeWord_eq_ok_iff (w : PackedWord) (op : Op) :
    decodeWord w = .ok (op.instrOfFields (fieldA w) (fieldB w) (fieldC w) (litField w)) ↔
      tagField w = op.tag ∧ w &&& op.format.reservedMask = 0 := by
  constructor
  · intro h
    unfold decodeWord at h
    split at h
    · cases h
    · next op' htag =>
      split at h
      · next hres =>
        have hop : op' = op := by simpa using congrArg Instr.op (Except.ok.inj h)
        subst hop
        exact ⟨(Op.tag_of_ofTag htag).symm, hres⟩
      · cases h
  · rintro ⟨htag, hres⟩
    simp [decodeWord, htag, hres]

/-- The word with an opcode's tag and all other bits zero: the opcode's pattern. -/
def Op.pattern (op : Op) : PackedWord := packFields op 0 0 0 0

/-- A word shows a pattern in the tag field exactly when it has the tag. -/
theorem and_tagMask_eq_pattern_iff (w : PackedWord) (op : Op) :
    w &&& 0xF0000000 = op.pattern ↔ tagField w = op.tag := by
  have hmask : (0xF0000000 : PackedWord) = sixFields (BitVec.allOnes 4) 0 0 0 0 0 := by decide
  rw [Op.pattern, packFields_eq_sixFields, hmask]
  conv_lhs => rw [word_eq_sixFields w]
  rw [sixFields_and, sixFields_inj, BitVec.and_allOnes]
  simp

/-- The tag field and a format's reserved bits can be looked at apart. -/
theorem and_rowMask_eq_pattern_iff (w : PackedWord) (op : Op) :
    w &&& (0xF0000000 ||| op.format.reservedMask) = op.pattern ↔
      w &&& 0xF0000000 = op.pattern ∧ w &&& op.format.reservedMask = 0 := by
  have htag : (0xF0000000 ||| op.format.reservedMask) &&& 0xF0000000 = 0xF0000000 := by cases op <;> decide
  have hres : (0xF0000000 ||| op.format.reservedMask) &&& op.format.reservedMask = op.format.reservedMask := by
    cases op <;> decide
  have hpat : op.pattern &&& 0xF0000000 = op.pattern ∧ op.pattern &&& op.format.reservedMask = 0 := by
    cases op <;> decide
  constructor
  · intro h
    have ht := congrArg (· &&& 0xF0000000) h
    have hr := congrArg (· &&& op.format.reservedMask) h
    simp only [BitVec.and_assoc, htag, hres, hpat] at ht hr
    exact ⟨ht, hr⟩
  · rintro ⟨ht, hr⟩
    rw [BitVec.and_or_distrib_left, ht, hr]
    exact BitVec.or_zero

/-- Every row of the opcode map describes the words of its opcode. -/
theorem wordsDecodeTo_of_mem_opcodeTable {row : OpcodeRow} (h : row ∈ opcodeTable) :
    WordsDecodeTo row.pattern row.mask
      (fun w => row.op.instrOfFields (fieldA w) (fieldB w) (fieldC w) (litField w)) := by
  have hrow : ∀ r ∈ opcodeTable,
      r.pattern = r.op.pattern ∧ r.mask = 0xF0000000 ||| r.op.format.reservedMask := by decide
  obtain ⟨hpattern, hmask⟩ := hrow row h
  intro w
  rw [hpattern, hmask, and_rowMask_eq_pattern_iff, and_tagMask_eq_pattern_iff, decodeWord_eq_ok_iff]

end Sys2Proof
end

section
/-! Reading an assembler line (30_encoding.md R85, R92): its mnemonic, and the tokens between its commas. -/

namespace Sys2Proof

/-- A token of a line: some characters, none of which is white space or a comma. A mnemonic is one, and so is every
operand that `spell` writes. -/
def IsToken (t : List Char) : Prop := t ≠ [] ∧ t.all inMnemonic = true

theorem IsToken.inMnemonic_of_mem {t : List Char} (ht : IsToken t) {c : Char} (hc : c ∈ t) : inMnemonic c = true :=
  List.all_eq_true.1 ht.2 c hc

theorem IsToken.exists_cons {t : List Char} (ht : IsToken t) : ∃ c u, t = c :: u ∧ inMnemonic c = true := by
  obtain ⟨c, u, rfl⟩ := List.exists_cons_of_ne_nil ht.1
  exact ⟨c, u, rfl, ht.inMnemonic_of_mem List.mem_cons_self⟩

theorem isWs_of_inMnemonic {c : Char} (h : inMnemonic c = true) : isWs c = false := by
  simp only [inMnemonic, Bool.and_eq_true, Bool.not_eq_true'] at h
  exact h.1

theorem ne_comma_of_inMnemonic {c : Char} (h : inMnemonic c = true) : c ≠ ',' := by
  rintro rfl
  simp [inMnemonic] at h

theorem ne_comma_of_isWs {c : Char} (h : isWs c = true) : c ≠ ',' := by
  rintro rfl
  exact absurd h (by decide)

/-- A line with a token in it is not blank. -/
theorem all_isWs_append_token (before rest : List Char) {t : List Char} (ht : IsToken t) :
    (before ++ t ++ rest).all isWs = false := by
  obtain ⟨c, u, rfl, hc⟩ := ht.exists_cons
  simp [isWs_of_inMnemonic hc]

/-! ### The mnemonic -/

/-- The line's reading once its mnemonic is known: white space before it is skipped, and the operands decide. -/
theorem decodeText_of_mnemonic {before m rest : List Char} {op : Op} (hb : before.all isWs = true) (hm : IsToken m)
    (hop : Op.ofMnemonic m = some op) (hrest : ∀ c, rest.head? = some c → inMnemonic c = false) :
    decodeText (before ++ m ++ rest) =
      (parseOperands op (operandsOf rest)).elim (.error .malformedInstruction) .ok := by
  have hbefore : ∀ c ∈ before, (!inMnemonic c) = true := fun c hc => by
    simp [inMnemonic, List.all_eq_true.1 hb c hc]
  have hstart : (m ++ rest).takeWhile (fun c => !inMnemonic c) = [] ∧
      (m ++ rest).dropWhile (fun c => !inMnemonic c) = m ++ rest := by
    obtain ⟨c, u, rfl, hc⟩ := hm.exists_cons
    simp [hc]
  have hstop : rest.takeWhile inMnemonic = [] ∧ rest.dropWhile inMnemonic = rest := by
    cases rest with
    | nil => exact ⟨rfl, rfl⟩
    | cons c rest => simp [hrest c rfl]
  have hmem : ∀ c ∈ m, inMnemonic c = true := fun c => hm.inMnemonic_of_mem
  rw [decodeText, all_isWs_append_token before rest hm]
  simp only [List.append_assoc, List.takeWhile_append_of_pos hbefore, List.dropWhile_append_of_pos hbefore, hstart,
    List.takeWhile_append_of_pos hmem, List.dropWhile_append_of_pos hmem, hstop, List.append_nil, hop, hb]
  cases parseOperands op (operandsOf rest) <;> rfl

/-- Each mnemonic is a token, and it names its opcode. -/
theorem isToken_mnemonic (op : Op) : IsToken op.mnemonic.toList := by
  unfold IsToken
  cases op <;> decide

theorem Op.ofMnemonic_mnemonic (op : Op) : Op.ofMnemonic op.mnemonic.toList = some op := by
  cases op <;> decide

/-! ### The operands -/

theorem splitCommas_of_no_comma {p : List Char} (h : ∀ c ∈ p, c ≠ ',') : splitCommas p = [p] := by
  induction p with
  | nil => rfl
  | cons c p ih =>
    obtain ⟨hc, hp⟩ := List.forall_mem_cons.1 h
    simp [splitCommas, hc, ih hp, consFirst]

theorem splitCommas_append_comma {p : List Char} (s : List Char) (h : ∀ c ∈ p, c ≠ ',') :
    splitCommas (p ++ ',' :: s) = p :: splitCommas s := by
  induction p with
  | nil => rfl
  | cons c p ih =>
    obtain ⟨hc, hp⟩ := List.forall_mem_cons.1 h
    simp [splitCommas, hc, ih hp, consFirst]

/-- White space around a token is taken off, and none of the token. -/
theorem trimWs_token {before t after : List Char} (hb : before.all isWs = true) (ht : IsToken t)
    (ha : after.all isWs = true) : trimWs (before ++ t ++ after) = t := by
  have hdrop : ∀ u v : List Char, IsToken u → (u ++ v).dropWhile isWs = u ++ v := by
    intro u v hu
    obtain ⟨c, w, rfl, hc⟩ := hu.exists_cons
    simp [isWs_of_inMnemonic hc]
  have hrev : IsToken t.reverse := by simpa [IsToken] using ht
  have hafter : ∀ c ∈ after.reverse, isWs c = true := by simpa using ha
  unfold trimWs
  rw [List.append_assoc, List.dropWhile_append_of_pos (List.all_eq_true.1 hb), hdrop _ _ ht, List.reverse_append,
    List.dropWhile_append_of_pos hafter, ← List.append_nil t.reverse, hdrop _ _ hrev, List.append_nil,
    List.reverse_reverse]

/-- Cutting at the commas and trimming gives back the tokens that were joined. -/
theorem trimmed_pieces_joinCommas {before after : List Char} {ts : List (List Char)} (hb : before.all isWs = true)
    (ha : after.all isWs = true) (hne : ts ≠ []) (hts : ∀ t ∈ ts, IsToken t) :
    (splitCommas (before ++ joinCommas ts ++ after)).map trimWs = ts := by
  induction ts generalizing before with
  | nil => exact absurd rfl hne
  | cons t ts ih =>
    obtain ⟨ht, hts⟩ := List.forall_mem_cons.1 hts
    have hpiece : ∀ c ∈ before ++ t, c ≠ ',' := fun c hc => (List.mem_append.1 hc).elim
      (fun hc => ne_comma_of_isWs (List.all_eq_true.1 hb c hc))
      (fun hc => ne_comma_of_inMnemonic (ht.inMnemonic_of_mem hc))
    cases ts with
    | nil =>
      have hlast : ∀ c ∈ before ++ t ++ after, c ≠ ',' := fun c hc => (List.mem_append.1 hc).elim
        (hpiece c) (fun hc => ne_comma_of_isWs (List.all_eq_true.1 ha c hc))
      rw [joinCommas, splitCommas_of_no_comma hlast, List.map_singleton, trimWs_token hb ht ha]
    | cons u us =>
      have hrest := ih (before := []) rfl nofun hts
      have htrim := trimWs_token hb ht (after := []) rfl
      rw [List.append_nil] at htrim
      have hjoin : before ++ joinCommas (t :: u :: us) ++ after =
          (before ++ t) ++ ',' :: ([] ++ joinCommas (u :: us) ++ after) := by simp [joinCommas]
      rw [hjoin, splitCommas_append_comma _ hpiece, List.map_cons, htrim, hrest]

theorem joinCommas_cons_eq_append (t : List Char) (ts : List (List Char)) : ∃ u, joinCommas (t :: ts) = t ++ u := by
  cases ts with
  | nil => exact ⟨[], (List.append_nil t).symm⟩
  | cons u us => exact ⟨_, rfl⟩

/-- The operands of a line that spells some tokens are those tokens. -/
theorem operandsOf_joinCommas {t : List Char} {ts : List (List Char)} {after : List Char}
    (ha : after.all isWs = true) (hts : ∀ u ∈ t :: ts, IsToken u) :
    operandsOf (' ' :: joinCommas (t :: ts) ++ after) = t :: ts := by
  obtain ⟨u, hu⟩ := joinCommas_cons_eq_append t ts
  have hne : (' ' :: joinCommas (t :: ts) ++ after).all isWs = false := by
    simpa [hu] using all_isWs_append_token [' '] (u ++ after) (hts t List.mem_cons_self)
  rw [operandsOf, hne, if_neg Bool.false_ne_true]
  exact trimmed_pieces_joinCommas (before := [' ']) (by decide) ha (List.cons_ne_nil t ts) hts

/-- A line of a mnemonic and tokens is judged by what its operand list parses to, whatever white space stands around
it. -/
theorem decodeText_spellLine {before after : List Char} {ts : List (List Char)} (op : Op)
    (hb : before.all isWs = true) (ha : after.all isWs = true) (hts : ∀ t ∈ ts, IsToken t) :
    decodeText (before ++ spellLine op ts ++ after) =
      (parseOperands op ts).elim (.error .malformedInstruction) .ok := by
  cases ts with
  | nil =>
    have hrest : ∀ c, after.head? = some c → inMnemonic c = false := fun c hc => by
      simp [inMnemonic, List.all_eq_true.1 ha c (List.mem_of_head? hc)]
    rw [spellLine, decodeText_of_mnemonic hb (isToken_mnemonic op) (Op.ofMnemonic_mnemonic op) hrest, operandsOf,
      if_pos ha]
  | cons t ts =>
    have hstop : ∀ c, (' ' :: joinCommas (t :: ts) ++ after).head? = some c → inMnemonic c = false := by
      rintro c ⟨⟩
      decide
    rw [spellLine, ← List.append_assoc, List.append_assoc,
      decodeText_of_mnemonic hb (isToken_mnemonic op) (Op.ofMnemonic_mnemonic op) hstop, operandsOf_joinCommas ha hts]

end Sys2Proof
end

section
/-! Register and literal tokens as `spell` writes them (30_encoding.md R85 to R87): each is a token, and each reads back
as its operand. -/

namespace Sys2Proof

open Machine

/-! ### Runs of digits -/

theorem isDecDigit_iff (c : Char) : isDecDigit c = true ↔ 48 ≤ c.toNat ∧ c.toNat ≤ 57 := decide_eq_true_iff

theorem inMnemonic_of_isDecDigit {c : Char} (h : isDecDigit c = true) : inMnemonic c = true := by
  have hne : ∀ d : Char, isDecDigit d = false → c ≠ d := by
    rintro d hd rfl
    simp [h] at hd
  simp [inMnemonic, isWs, hne ' ' (by decide), hne '\t' (by decide), hne ',' (by decide)]

theorem isToken_of_digitRun {ds : List Char} (h : DigitRun ds) : IsToken ds :=
  ⟨h.1, List.all_eq_true.2 fun c hc => inMnemonic_of_isDecDigit (List.all_eq_true.1 h.2 c hc)⟩

theorem isToken_cons {c : Char} {t : List Char} (hc : inMnemonic c = true) (ht : IsToken t) : IsToken (c :: t) :=
  ⟨List.cons_ne_nil c t, by simp [hc, ht.2]⟩

/-- A run of digits without a sign is its decimal value: no digit is a sign. -/
theorem parseSigned_of_digitRun {ds : List Char} (h : DigitRun ds) : parseSigned ds = some (digitsValue ds : Int) := by
  have hsign : ∀ c u, ds = c :: u → isDecDigit c = true := by
    rintro c u rfl
    exact List.all_eq_true.1 h.2 c List.mem_cons_self
  unfold parseSigned
  split
  · exact absurd (hsign _ _ rfl) (by decide)
  · exact absurd (hsign _ _ rfl) (by decide)
  · rw [parseDigits_of_digitRun h]
    rfl

/-! ### Registers -/

theorem isToken_spellReg (r : Reg) : IsToken (spellReg r) := by
  unfold IsToken
  revert r
  decide

theorem parseReg_spellReg (r : Reg) : parseReg (spellReg r) = some r := by
  revert r
  decide

/-! ### Literals -/

theorem toNat_digitChar (n : Nat) : (digitChar n).toNat = 48 + n % 10 := by
  have h : ∀ k < 10, (Char.ofNat (48 + k)).toNat = 48 + k := by decide
  exact h (n % 10) (Nat.mod_lt n (by decide))

theorem isDecDigit_digitChar (n : Nat) : isDecDigit (digitChar n) = true := by
  rw [isDecDigit_iff, toNat_digitChar]
  omega

theorem digitsValue_fiveDigits {n : Nat} (h : n < 100000) : digitsValue (fiveDigits n) = n := by
  simp only [digitsValue, fiveDigits, List.foldl, toNat_digitChar]
  omega

/-- Leading zeros do not count. -/
theorem digitsValue_dropWhile_zero (ds : List Char) : digitsValue (ds.dropWhile (· == '0')) = digitsValue ds := by
  induction ds with
  | nil => rfl
  | cons c ds ih =>
    by_cases hc : c = '0'
    · subst hc
      exact ih
    · simp [hc]

theorem digitsValue_spellNat {n : Nat} (h : n < 100000) : digitsValue (spellNat n) = n := by
  unfold spellNat
  split
  · next h0 => rw [h0]; rfl
  · rw [digitsValue_dropWhile_zero, digitsValue_fiveDigits h]

/-- A number is spelled with digits alone, and with at least one: without any, its value would be zero. -/
theorem digitRun_spellNat {n : Nat} (h : n < 100000) : DigitRun (spellNat n) := by
  refine ⟨fun hnil => ?_, List.all_eq_true.2 fun c hc => ?_⟩
  · have h0 := digitsValue_spellNat h
    rw [hnil] at h0
    subst h0
    exact absurd hnil (by decide)
  · unfold spellNat at hc
    split at hc
    · rw [List.mem_singleton.1 hc]
      decide
    · have hfive := (List.dropWhile_sublist _).subset hc
      simp only [fiveDigits, List.mem_cons, List.not_mem_nil, or_false] at hfive
      rcases hfive with rfl | rfl | rfl | rfl | rfl <;> exact isDecDigit_digitChar _

theorem isToken_spellInt {n : Int} (h : -32768 ≤ n ∧ n ≤ 32767) : IsToken (spellInt n) := by
  have hdigits := isToken_of_digitRun (digitRun_spellNat (n := n.natAbs) (by omega))
  unfold spellInt
  split
  · exact isToken_cons (by decide) hdigits
  · exact hdigits

theorem parseLit_spellInt {n : Int} (h : -32768 ≤ n ∧ n ≤ 32767) : parseLit (spellInt n) = some n := by
  have habs : n.natAbs < 100000 := by omega
  have hsigned : parseSigned (spellInt n) = some n := by
    unfold spellInt
    split
    · rw [parseSigned_minus (digitRun_spellNat habs), digitsValue_spellNat habs]
      congr
      omega
    · rw [parseSigned_of_digitRun (digitRun_spellNat habs), digitsValue_spellNat habs]
      congr
      omega
  rw [parseLit_of_parseSigned hsigned, if_pos h]

/-! ### Lines -/

theorem decodeText_spellLine_of_parseOperands {op : Op} {ts : List (List Char)} {i : Instr}
    (hts : ∀ t ∈ ts, IsToken t) (hi : parseOperands op ts = some i) : decodeText (spellLine op ts) = .ok i := by
  have h := decodeText_spellLine (before := []) (after := []) op rfl rfl hts
  rwa [List.nil_append, List.append_nil, hi] at h

/-- The line of an opcode with three registers, as it is spelled. -/
theorem decodeText_three_regs {op : Op} (hop : op.format = .r) (rd rs rt : Reg) :
    decodeText (spellLine op [spellReg rd, spellReg rs, spellReg rt]) = .ok (op.instrOfFields rd rs rt 0) := by
  refine decodeText_spellLine_of_parseOperands (by simp [isToken_spellReg]) ?_
  simp [parseOperands, hop, parseReg_spellReg]

/-- The line of an opcode with two registers and a literal. -/
theorem decodeText_two_regs_lit {op : Op} (hop : op.format = .i ∨ op.format = .b) (ra rb : Reg) {n : Int}
    (h : -32768 ≤ n ∧ n ≤ 32767) :
    decodeText (spellLine op [spellReg ra, spellReg rb, spellInt n]) = .ok (op.instrOfFields ra rb 0 n) := by
  refine decodeText_spellLine_of_parseOperands (by simp [isToken_spellReg, isToken_spellInt h]) ?_
  rcases hop with hop | hop <;> simp [parseOperands, hop, parseReg_spellReg, parseLit_spellInt h]

end Sys2Proof
end

section
/-! ADD, ADDI, SUB and SLT (41_alu.md R140 to R148). -/

namespace Sys2Proof.Machine

/-- An instruction that accesses no data completes: its handler, then the generic increment. -/
theorem exec_of_no_dataAddress {i : Instr} {s : State} (h : dataAddress i s = none) :
    exec i s = .next (handled i s).advance :=
  exec_of_inRange fun ⟨_, hea, _⟩ => by simp [h] at hea

/-- An instruction whose handler writes one register leaves that write and the generic increment, and nothing else. -/
theorem exec_of_handled_eq_setReg {i : Instr} {s : State} {r : Reg} {v : Word} (hd : dataAddress i s = none)
    (hh : handled i s = s.setReg r v) : exec i s = .next { s with regs := s.regs.set r v, pc := s.pc + 1 } := by
  rw [exec_of_no_dataAddress hd, hh]
  rfl

/-- Settles O1: ADD's row of the opcode map, its line, and its handler. -/
theorem addWritesWrappedSum : Obligations.AddWritesWrappedSum :=
  ⟨wordsDecodeTo_of_mem_opcodeTable (row := ⟨.add, 0x00000000, 0xF007FFFF⟩) (by decide),
    fun rd rs rt => ⟨decodeText_three_regs rfl rd rs rt, fun _ => exec_of_handled_eq_setReg rfl rfl⟩⟩

/-- Settles O2: SUB's row of the opcode map, its line, and its handler. -/
theorem subWritesWrappedDifference : Obligations.SubWritesWrappedDifference :=
  ⟨wordsDecodeTo_of_mem_opcodeTable (row := ⟨.sub, 0x20000000, 0xF007FFFF⟩) (by decide),
    fun rd rs rt => ⟨decodeText_three_regs rfl rd rs rt, fun _ => exec_of_handled_eq_setReg rfl rfl⟩⟩

/-- Settles O3: SLT's row of the opcode map, its line, and its handler, whose comparison `setOnLess` is the signed
one. -/
theorem sltWritesSignedComparison : Obligations.SltWritesSignedComparison :=
  ⟨wordsDecodeTo_of_mem_opcodeTable (row := ⟨.slt, 0x30000000, 0xF007FFFF⟩) (by decide),
    fun rd rs rt => ⟨decodeText_three_regs rfl rd rs rt, fun _ => exec_of_handled_eq_setReg rfl rfl⟩⟩

/-- Settles O4: ADDI's row of the opcode map, its line, whose literal reads back because it is in range, and its
handler. -/
theorem addiWritesWrappedSumWithLiteral : Obligations.AddiWritesWrappedSumWithLiteral :=
  ⟨wordsDecodeTo_of_mem_opcodeTable (row := ⟨.addi, 0x10000000, 0xF03F0000⟩) (by decide),
    fun rt rs _ himm =>
      ⟨decodeText_two_regs_lit (.inl rfl) rt rs himm, fun _ => exec_of_handled_eq_setReg rfl rfl⟩⟩

end Sys2Proof.Machine
end

section
/-! BNE, J and JAL (42_control.md R160 to R166). -/

namespace Sys2Proof.Machine

/-- The line of an opcode whose one operand is a literal, as it is spelled. -/
theorem decodeText_lit {op : Op} (hop : op.format = .j ∨ op.format = .c) {n : Int}
    (h : -32768 ≤ n ∧ n ≤ 32767) : decodeText (spellLine op [spellInt n]) = .ok (op.instrOfFields 0 0 0 n) := by
  refine decodeText_spellLine_of_parseOperands (by simp [isToken_spellInt h]) ?_
  rcases hop with hop | hop <;> simp [parseOperands, hop, parseLit_spellInt h]

/-- BNE's comparison of patterns is that of the integers they denote. -/
theorem patternsDiffer_iff (a b : Word) : patternsDiffer a b = true ↔ a ≠ b := bne_iff_ne

/-- BNE leaves `nextPc` in `pc`, and nothing else: its handler writes `pc` or nothing. -/
theorem exec_bne (rs rt : Reg) (offset : Int) (s : State) :
    exec (.bne rs rt offset) s =
      .next { s with pc := if s.reg rs ≠ s.reg rt then s.pc + offset + 1 else s.pc + 1 } := by
  rw [exec_of_no_dataAddress rfl, handled]
  by_cases h : s.reg rs ≠ s.reg rt
  · rw [if_pos ((patternsDiffer_iff _ _).2 h), if_pos h]
    rfl
  · rw [if_neg (mt (patternsDiffer_iff _ _).1 h), if_neg h]
    rfl

/-- Settles O5: BNE's row of the opcode map, its line, and the two branches of its handler. -/
theorem bneBranchesWhenRegistersDiffer : Obligations.BneBranchesWhenRegistersDiffer :=
  ⟨wordsDecodeTo_of_mem_opcodeTable (row := ⟨.bne, 0x40000000, 0xF03F0000⟩) (by decide),
    fun rs rt offset hoff => ⟨decodeText_two_regs_lit (.inr rfl) rs rt hoff, exec_bne rs rt offset⟩⟩

/-- Settles O6: J's row of the opcode map, its line, and its handler, which leaves the target in `pc` for the generic
increment to pass. -/
theorem jumpContinuesAfterTarget : Obligations.JumpContinuesAfterTarget :=
  ⟨wordsDecodeTo_of_mem_opcodeTable (row := ⟨.j, 0x50000000, 0xFFFF0000⟩) (by decide),
    fun _ htarget => ⟨decodeText_lit (.inl rfl) htarget, fun _ => exec_of_no_dataAddress rfl⟩⟩

/-- Settles O7: JAL's row of the opcode map, its line, and its handler, which writes the link register before `pc`. -/
theorem jumpAndLinkSavesNextIndex : Obligations.JumpAndLinkSavesNextIndex :=
  ⟨wordsDecodeTo_of_mem_opcodeTable (row := ⟨.jal, 0x60000000, 0xFFFF0000⟩) (by decide),
    fun _ htarget => ⟨decodeText_lit (.inl rfl) htarget, fun _ => exec_of_no_dataAddress rfl⟩⟩

end Sys2Proof.Machine
end

section
/-! Memory operands as `spell` writes them (30_encoding.md R87), and the lines of LW and SW. -/

namespace Sys2Proof

open Machine

theorem isToken_append {t u : List Char} (ht : IsToken t) (hu : IsToken u) : IsToken (t ++ u) :=
  ⟨List.append_ne_nil_of_left_ne_nil ht.1 u, by rw [List.all_append, ht.2, hu.2]; rfl⟩

theorem isToken_spellMem {n : Int} (h : -32768 ≤ n ∧ n ≤ 32767) (rs : Reg) : IsToken (spellMem n rs) :=
  isToken_append (isToken_spellInt h)
    (isToken_cons (by decide) (isToken_append (isToken_spellReg rs) ⟨by decide, by decide⟩))

/-- The first opening bracket of a memory operand is the one before its base register: a literal is spelled with digits
and a minus sign. -/
theorem ne_openBracket_of_mem_spellInt {n : Int} (h : -32768 ≤ n ∧ n ≤ 32767) {c : Char} (hc : c ∈ spellInt n) :
    c ≠ '(' := by
  have hdigit : ∀ d ∈ spellNat n.natAbs, d ≠ '(' := by
    rintro d hd rfl
    exact absurd (List.all_eq_true.1 (digitRun_spellNat (n := n.natAbs) (by omega)).2 _ hd) (by decide)
  unfold spellInt at hc
  split at hc
  · rcases List.mem_cons.1 hc with rfl | hc
    · decide
    · exact hdigit c hc
  · exact hdigit c hc

theorem parseMem_spellMem {n : Int} (h : -32768 ≤ n ∧ n ≤ 32767) (rs : Reg) :
    parseMem (spellMem n rs) = some (n, rs) := by
  rw [spellMem, parseMem_append fun _ => ne_openBracket_of_mem_spellInt h, parseLit_spellInt h, parseReg_spellReg]

/-- The line of an opcode with a register and a memory operand, as it is spelled. -/
theorem decodeText_reg_mem {op : Op} (hop : op.format = .m) (rt rs : Reg) {n : Int}
    (h : -32768 ≤ n ∧ n ≤ 32767) :
    decodeText (spellLine op [spellReg rt, spellMem n rs]) = .ok (op.instrOfFields rt rs 0 n) := by
  refine decodeText_spellLine_of_parseOperands (by simp [isToken_spellReg, isToken_spellMem h]) ?_
  simp [parseOperands, hop, parseReg_spellReg, parseMem_spellMem h]

end Sys2Proof
end

section
/-! LW and SW (43_load_store.md R180 to R186): the load and the store at an address of the MemoryBus, and the fault at
every other. -/

namespace Sys2Proof.Machine

/-! ### The check of the effective address -/

/-- An access to a cell of the MemoryBus completes. -/
theorem exec_of_address_inside {i : Instr} {s : State} {ea : Int} (hi : dataAddress i s = some ea) (h0 : 0 ≤ ea)
    (hlt : ea < 256) : exec i s = .next (handled i s).advance := by
  refine exec_of_inRange ?_
  rintro ⟨ea', hea', hout⟩
  obtain rfl : ea = ea' := Option.some.inj (hi.symm.trans hea')
  exact hout ⟨h0, hlt⟩

/-- An access to any other address writes the status and the fault address, and nothing else. -/
theorem exec_of_address_outside {i : Instr} {s : State} {ea : Int} (hi : dataAddress i s = some ea)
    (hout : ea < 0 ∨ 256 ≤ ea) :
    exec i s = .next { s with status := .addressOutOfRange, faultAddr := ea } := by
  have hnot : ¬ inMemory ea := fun ⟨h0, hlt⟩ => hout.elim (not_lt.2 h0) (not_le.2 hlt)
  exact exec_of_outOfRange hi hnot

/-! ### Load and store -/

/-- A load that hits takes the line's value, stale or not, and leaves the cache as it is. -/
theorem exec_lw_hit {s : State} {rs : Reg} {offset : Int} (rt : Reg) (h0 : 0 ≤ s.reg rs + offset)
    (hlt : s.reg rs + offset < 256) {v : Word} (hget : Cache.get s.cache (s.reg rs + offset).toNat = some v) :
    exec (.lw rt offset rs) s = .next { s with regs := s.regs.set rt v, pc := s.pc + 1 } := by
  obtain ⟨hvalue, heffect⟩ := readPath_hit hget
  rw [exec_of_address_inside rfl h0 hlt, handled, effectiveAddress, hvalue, heffect]
  rfl

/-- A load that misses takes the cell's value and hands it to `CacheSet`. -/
theorem exec_lw_miss {s : State} {rs : Reg} {offset : Int} (rt : Reg) (h0 : 0 ≤ s.reg rs + offset)
    (hlt : s.reg rs + offset < 256) (hget : Cache.get s.cache (s.reg rs + offset).toNat = none) :
    exec (.lw rt offset rs) s =
      .next ((s.cacheSet (s.reg rs + offset).toNat (Memory.read s.mem (s.reg rs + offset).toNat)).setReg rt
        (Memory.read s.mem (s.reg rs + offset).toNat)).advance := by
  obtain ⟨hvalue, heffect⟩ := readPath_miss hget
  rw [exec_of_address_inside rfl h0 hlt, handled, effectiveAddress, hvalue, heffect]

/-- Settles O8: LW's row of the opcode map, its line, and the two branches of `ReadPath` beside the fault. -/
theorem loadReadsCacheThenMemory : Obligations.LoadReadsCacheThenMemory :=
  ⟨wordsDecodeTo_of_mem_opcodeTable (row := ⟨.lw, 0x70000000, 0xF03F0000⟩) (by decide),
    fun rt _ rs hoff => ⟨decodeText_reg_mem rfl rt rs hoff, fun _ =>
      ⟨fun h0 hlt => ⟨fun _ => exec_lw_hit rt h0 hlt, exec_lw_miss rt h0 hlt⟩, exec_of_address_outside rfl⟩⟩⟩

/-- Settles O9: SW's row of the opcode map, its line, and `WritePath`, whose `CacheSet` asks for the enabled flag,
beside the fault. -/
theorem storeWritesMemoryAndEnabledCache : Obligations.StoreWritesMemoryAndEnabledCache :=
  ⟨wordsDecodeTo_of_mem_opcodeTable (row := ⟨.sw, 0x80000000, 0xF03F0000⟩) (by decide),
    fun rt _ rs hoff => ⟨decodeText_reg_mem rfl rt rs hoff, fun _ =>
      ⟨exec_of_address_inside rfl, exec_of_address_outside rfl⟩⟩⟩

/-! ### The fault in a run -/

/-- A step that is about to run an instruction executes it: the fetch and both stop checks have let it through. -/
theorem step_of_aboutToRun {s : State} {i : Instr} (h : AboutToRun s i) : step s = exec i s := by
  have hfetch := fetch_of_aboutToRun h
  obtain ⟨⟨hstatus, hrunning⟩, -, hpc, -⟩ := h
  rw [step_of_running hstatus, loopTurn_of_lt_progLen hrunning hpc, stepInstruction, hfetch]

/-- Settles O10: the step is the access, and the access writes the status and the fault address alone. -/
theorem accessOutsideMemoryStopsTheRun : Obligations.AccessOutsideMemoryStopsTheRun := by
  intro s rt offset rs hout hrun
  have hstep : step s =
      .next { s with status := .addressOutOfRange, faultAddr := effectiveAddress s rs offset } := by
    rcases hrun with hlw | hsw
    · rw [step_of_aboutToRun hlw, exec_of_address_outside rfl hout]
    · rw [step_of_aboutToRun hsw, exec_of_address_outside rfl hout]
  exact ⟨_, hstep, rfl, rfl, fun _ => rfl, rfl, rfl, rfl, rfl, rfl⟩

end Sys2Proof.Machine
end

section
/-! CACHE and HALT (44_system.md R200 to R206). -/

namespace Sys2Proof.Machine

/-! ### The codes of CACHE -/

theorem State.cacheControl_disable (s : State) : s.cacheControl 0 = s.setEnabled false := rfl

theorem State.cacheControl_enable (s : State) : s.cacheControl 1 = s.setEnabled true := rfl

theorem State.cacheControl_flush (s : State) : s.cacheControl 2 = s.cacheFlush := rfl

theorem State.cacheControl_noop (s : State) {code : Int} (h : code ≠ 0 ∧ code ≠ 1 ∧ code ≠ 2) :
    s.cacheControl code = s := by
  obtain ⟨h0, h1, h2⟩ := h
  rw [State.cacheControl, if_neg h0, if_neg h1, if_neg h2]

/-- CACHE completes from every state, whatever its code. -/
theorem exec_cache (code : Int) (s : State) : exec (.cache code) s = .next (s.cacheControl code).advance :=
  exec_of_no_dataAddress rfl

/-- Settles O11: CACHE's row of the opcode map, its line, and the effect of each code before the generic increment. -/
theorem cacheControlFollowsItsCode : Obligations.CacheControlFollowsItsCode := by
  refine ⟨wordsDecodeTo_of_mem_opcodeTable (row := ⟨.cache, 0x90000000, 0xFFFF0000⟩) (by decide),
    fun _ hcode => decodeText_lit (.inr rfl) hcode, fun s => ⟨?_, ?_, ?_, Cache.get_nil, fun code hcode => ?_⟩⟩
  · rw [exec_cache, State.cacheControl_disable]
    rfl
  · rw [exec_cache, State.cacheControl_enable]
    rfl
  · rw [exec_cache, State.cacheControl_flush]
    rfl
  · rw [exec_cache, State.cacheControl_noop s hcode]
    rfl

/-! ### HALT -/

/-- The line of an opcode without operands, as it is spelled. -/
theorem decodeText_no_operands {op : Op} (hop : op.format = .n) :
    decodeText (spellLine op []) = .ok (op.instrOfFields 0 0 0 0) :=
  decodeText_spellLine_of_parseOperands nofun (by simp [parseOperands, hop])

/-- Settles O12: HALT's row of the opcode map, whose mask leaves one word, its line, and its handler, which keeps `pc`
for the generic increment. -/
theorem haltClearsRunning : Obligations.HaltClearsRunning :=
  ⟨wordsDecodeTo_of_mem_opcodeTable (row := ⟨.halt, 0xA0000000, 0xFFFFFFFF⟩) (by decide),
    decodeText_no_operands rfl, fun _ => exec_of_no_dataAddress rfl⟩

/-! ### The load after CACHE 2 -/

/-- The cell a load accesses is the one its effective address names, inside the MemoryBus. -/
theorem accessedCell_lw_eq_some {rt rs : Reg} {offset : Int} {s : State} {a : Nat}
    (h : accessedCell (.lw rt offset rs) s = some a) :
    0 ≤ s.reg rs + offset ∧ s.reg rs + offset < 256 ∧ (s.reg rs + offset).toNat = a := by
  obtain ⟨⟨h0, hlt⟩, ha⟩ := Option.ite_none_right_eq_some.1 h
  exact ⟨h0, hlt, Option.some.inj ha⟩

/-- A load that misses takes the cell's value, writes no memory, and fills its line if the cache is enabled. -/
theorem exec_lw_reads_memory_of_miss {rt rs : Reg} {offset : Int} {s u : State} {a : Nat}
    (hcell : accessedCell (.lw rt offset rs) s = some a) (hmiss : Cache.get s.cache a = none)
    (h : exec (.lw rt offset rs) s = .next u) :
    u.reg rt = Memory.read s.mem a ∧ u.mem = s.mem ∧
      ∀ b, Cache.get u.cache b =
        if b = a ∧ s.enabled = true then some (Memory.read s.mem a) else Cache.get s.cache b := by
  obtain ⟨h0, hlt, rfl⟩ := accessedCell_lw_eq_some hcell
  rw [exec_lw_miss rt h0 hlt hmiss] at h
  cases h
  refine ⟨by simp, rfl, fun b => (cacheGet_cacheSet s _ b _).trans ?_⟩
  simp only [and_comm]

/-- Settles O42: after the flush every line is invalid, so the load misses, and the flush has kept the enabled flag and
the MemoryBus. -/
theorem loadAfterFlushReadsMemory : Obligations.LoadAfterFlushReadsMemory := by
  refine ⟨by decide, fun s t ht => ?_⟩
  rw [exec_cache, State.cacheControl_flush] at ht
  cases ht
  exact ⟨Cache.get_flushed, rfl, fun _ _ _ _ a hcell hu =>
    exec_lw_reads_memory_of_miss hcell (Cache.get_flushed a) hu⟩

end Sys2Proof.Machine
end

section
/-! The run start (40_execution_cycle.md R120, R133, 70_reset_and_hazards.md R251). -/

namespace Sys2Proof.Machine

theorem hostRunStart_of_running {s : State} (hs : s.status = .running) : hostRunStart s = .error .busy :=
  if_pos hs

theorem hostRunStart_of_not_running {s : State} (hs : s.status ≠ .running) : hostRunStart s = .ok s.runStart :=
  if_neg hs

theorem hostRun_of_hostRunStart {s t : State} (fuel : Nat) (h : hostRunStart s = .ok t) :
    hostRun fuel s = .ok (runLoop fuel t) := by
  unfold hostRun
  rw [h]

/-- Settles O55: a run is the run start and then the loop, and the run start is the reset of R251 unless a run is in
progress. -/
theorem runStartResetsPcAndRunning : Obligations.RunStartResetsPcAndRunning :=
  ⟨Memory.read_nil, Cache.get_nil, fun _ =>
    ⟨fun n _ h => hostRun_of_hostRunStart n h, hostRunStart_of_running, hostRunStart_of_not_running⟩⟩

end Sys2Proof.Machine
end

section
/-! The representation invariant (10_state.md R20, R32 to R34): each state operation keeps it, so every instruction,
every step and every host operation does. -/

namespace Sys2Proof.Machine

/-! ### The state operations -/

/-- The invariant speaks of the parameters, the registers, the MemoryBus, the cache and the program alone. -/
theorem State.Inv.congr {s t : State} (h : s.Inv) (hcfg : t.cfg = s.cfg) (hregs : t.regs = s.regs)
    (hmem : t.mem = s.mem) (hcache : t.cache = s.cache) (hprogram : t.program = s.program) : t.Inv where
  mem_wf := hmem ▸ h.mem_wf
  cache_wf := hcache ▸ h.cache_wf
  regs_fit i := by rw [hcfg, State.reg_congr hregs]; exact h.regs_fit i
  mem_fit := by rw [hcfg, hmem]; exact h.mem_fit
  cache_fit := by rw [hcfg, hcache]; exact h.cache_fit
  program_fits := hprogram ▸ h.program_fits

theorem State.Inv.advance {s : State} (h : s.Inv) : s.advance.Inv := h.congr rfl rfl rfl rfl rfl

theorem State.Inv.setReg {s : State} (h : s.Inv) (r : Reg) {v : Word} (hv : fits s.cfg v) : (s.setReg r v).Inv where
  __ := h
  regs_fit i := by
    by_cases hi : r = i
    · rw [hi, State.reg_setReg_self]; exact hv
    · rw [State.reg_setReg_ne s v hi]; exact h.regs_fit i

theorem State.Inv.memWrite {s : State} (h : s.Inv) {a : Nat} (ha : a < memCells) {v : Word} (hv : fits s.cfg v) :
    (s.memWrite a v).Inv where
  __ := h
  mem_wf := Memory.write_wf h.mem_wf v ha
  mem_fit p hp := by
    rcases Memory.mem_write hp with rfl | hp
    · exact hv
    · exact h.mem_fit p hp

theorem State.Inv.cacheFill {s : State} (h : s.Inv) {a : Nat} (ha : a < memCells) {v : Word} (hv : fits s.cfg v) :
    (s.cacheFill a v).Inv where
  __ := h
  cache_wf := Cache.fill_wf h.cache_wf v ha
  cache_fit p hp := by
    rcases Cells.mem_insert hp with rfl | hp
    · exact hv
    · exact h.cache_fit p hp

theorem State.Inv.cacheSet {s : State} (h : s.Inv) {a : Nat} (ha : a < memCells) {v : Word} (hv : fits s.cfg v) :
    (s.cacheSet a v).Inv := by
  by_cases he : s.enabled = true
  · exact (h.cacheFill ha hv).congr rfl rfl rfl (by simp [he]) rfl
  · exact h.congr rfl rfl rfl (by simp [he]) rfl

theorem State.Inv.cacheFlush {s : State} (h : s.Inv) : s.cacheFlush.Inv where
  __ := h
  cache_wf := Cache.flushed_wf
  cache_fit := nofun

theorem State.Inv.cacheControl {s : State} (h : s.Inv) (code : Int) : (s.cacheControl code).Inv := by
  by_cases hcode : code = 2
  · exact h.cacheFlush.congr (by simp) (by simp) (by simp) (by simp [hcode]) (by simp)
  · exact h.congr (by simp) (by simp) (by simp) (by simp [hcode]) (by simp)

/-- Every cell reads as a pattern of the engine's width: a listed one by the invariant, any other as zero. -/
theorem State.Inv.fits_read {s : State} (h : s.Inv) (a : Nat) : fits s.cfg (Memory.read s.mem a) := by
  unfold Memory.read
  cases hl : Cells.lookup a s.mem with
  | none => exact fits_zero s.cfg
  | some v => exact h.mem_fit _ (Cells.mem_of_lookup hl)

theorem State.Inv.fits_readValue {s : State} (h : s.Inv) (a : Nat) : fits s.cfg (s.readValue a) := by
  cases hc : Cache.get s.cache a with
  | none => rw [(readPath_miss hc).1]; exact h.fits_read a
  | some v => rw [(readPath_hit hc).1]; exact h.cache_fit _ (Cells.mem_of_lookup hc)

theorem State.Inv.readEffect {s : State} (h : s.Inv) {a : Nat} (ha : a < memCells) : (s.readEffect a).Inv := by
  cases hc : Cache.get s.cache a with
  | none => rw [(readPath_miss hc).2]; exact h.cacheSet ha (h.fits_read a)
  | some v => rw [(readPath_hit hc).2]; exact h

theorem State.Inv.writePath {s : State} (h : s.Inv) {a : Nat} (ha : a < memCells) {v : Word} (hv : fits s.cfg v) :
    (s.writePath a v).Inv :=
  (h.memWrite ha hv).cacheSet ha hv

/-! ### Instructions and steps -/

theorem toNat_lt_memCells {a : Int} (h : inMemory a) : a.toNat < memCells := by
  obtain ⟨h0, hlt⟩ := h
  omega

/-- An access that does not fault names a cell of the MemoryBus. -/
theorem inMemory_of_not_outOfRange {i : Instr} {s : State} {ea : Int} (h : ¬ OutOfRange i s)
    (hea : dataAddress i s = some ea) : inMemory ea :=
  by_contra fun hout => h ⟨ea, hea, hout⟩

/-- BNE's handler writes `pc` alone: an untaken branch writes what is there. -/
theorem handled_bne (rs rt : Reg) (offset : Int) (s : State) :
    handled (.bne rs rt offset) s =
      s.setPc (if patternsDiffer (s.reg rs) (s.reg rt) then s.pc + offset else s.pc) := by
  rw [handled]
  split <;> rfl

/-- Every handler keeps the invariant: what it writes is a result of `wrap`, a bit of SLT, or a value of the state. -/
theorem handled_keeps_inv {i : Instr} {s : State} (h : s.Inv) (hin : ¬ OutOfRange i s) : (handled i s).Inv := by
  cases i with
  | add rd rs rt => exact h.setReg rd (fits_wrap _ _)
  | addi rt rs imm => exact h.setReg rt (fits_wrap _ _)
  | sub rd rs rt => exact h.setReg rd (fits_wrap _ _)
  | slt rd rs rt => exact h.setReg rd (fits_setOnLess _ _ _)
  | bne rs rt offset => rw [handled_bne]; exact h.congr rfl rfl rfl rfl rfl
  | j target => exact h.congr rfl rfl rfl rfl rfl
  | jal target => exact (h.setReg linkReg (fits_wrap _ (s.pc + 1))).congr rfl rfl rfl rfl rfl
  | lw rt offset rs =>
    have ha := toNat_lt_memCells (inMemory_of_not_outOfRange hin rfl)
    exact (h.readEffect ha).setReg rt (by rw [State.readEffect_cfg]; exact h.fits_readValue _)
  | sw rt offset rs =>
    exact h.writePath (toNat_lt_memCells (inMemory_of_not_outOfRange hin rfl)) (h.regs_fit rt)
  | cache code => exact h.cacheControl code
  | halt => exact h.congr rfl rfl rfl rfl rfl

/-- A step either completes an instruction, its handler and then the generic increment, or writes at most the status and
the fault address: it idles, stops the run or takes a fault. -/
theorem step_completes_or_keeps {s t : State} (h : step s = .next t) :
    (∃ i, AboutToRun s i ∧ ¬ OutOfRange i s ∧ t = (handled i s).advance) ∨
    ∃ st fa, t = { s with status := st, faultAddr := fa } := by
  rcases step_cases h with ⟨-, rfl⟩ | ⟨-, -, rfl⟩ | ⟨-, -, rfl⟩ | ⟨-, -, -, rfl⟩ | ⟨-, -, -, e, -, rfl⟩ |
    ⟨i, hi, hx⟩
  · exact .inr ⟨_, _, rfl⟩
  · exact .inr ⟨_, _, rfl⟩
  · exact .inr ⟨_, _, rfl⟩
  · exact .inr ⟨_, _, rfl⟩
  · exact .inr ⟨_, _, rfl⟩
  · rcases exec_cases hx with ⟨hin, rfl⟩ | ⟨ea, -, -, rfl⟩
    · exact .inl ⟨i, hi, hin, rfl⟩
    · exact .inr ⟨_, _, rfl⟩

/-- Settles O33: the handlers keep the invariant, which does not speak of the status or the fault address. -/
theorem stepKeepsInvariant : Obligations.StepKeepsInvariant := by
  intro s t h hstep
  rcases step_completes_or_keeps hstep with ⟨i, -, hin, rfl⟩ | ⟨st, fa, rfl⟩
  · exact (handled_keeps_inv h hin).advance
  · exact h.congr rfl rfl rfl rfl rfl

/-! ### The host operations -/

theorem State.resetWith_inv (c : Config) : (State.resetWith c).Inv where
  mem_wf := Memory.nil_wf
  cache_wf := Cache.flushed_wf
  regs_fit i := by rw [State.resetWith_reg]; exact fits_zero c
  mem_fit := nofun
  cache_fit := nofun
  program_fits := Nat.zero_le lMax

/-- The invariant after a run start, whichever of the two resets it performs. -/
theorem State.Inv.runStart {s : State} (h : s.Inv) : s.runStart.Inv where
  mem_wf := by
    rw [State.runStart_mem]
    split
    · exact Memory.nil_wf
    · exact h.mem_wf
  cache_wf := by
    rw [State.runStart_cache]
    split
    · exact Cache.flushed_wf
    · exact h.cache_wf
  regs_fit := h.regs_fit
  mem_fit := by
    rw [State.runStart_mem]
    split
    · exact nofun
    · exact h.mem_fit
  cache_fit := by
    rw [State.runStart_cache]
    split
    · exact nofun
    · exact h.cache_fit
  program_fits := h.program_fits

/-- What every pair of an accepted initialisation feed keeps, the whole feed keeps: an induction for any property. -/
theorem initPairs_induction {P : State → Prop} {pairs : List (Int × Int)} {s : State} (hs : P s)
    (haddr : ∀ p ∈ pairs, inMemory p.1)
    (hpair : ∀ t a n, P t → a < memCells → P (initPair t a n)) : P (initPairs s pairs) := by
  induction pairs generalizing s with
  | nil => exact hs
  | cons p pairs ih =>
    obtain ⟨hp, haddr⟩ := List.forall_mem_cons.1 haddr
    rw [initPairs_cons]
    exact ih (hpair s _ p.2 hs (toNat_lt_memCells hp)) haddr

theorem State.Inv.initPair {s : State} (h : s.Inv) {a : Nat} (ha : a < memCells) (n : Int) : (initPair s a n).Inv :=
  (h.memWrite ha (fits_wrap _ n)).cacheFill ha (fits_wrap _ n)

/-- The alternatives of a host operation that is not rejected. -/
theorem hostApply_cases {c : HostCommand} {s t : State} (h : hostApply c s = .ok t) :
    (c = .powerOn ∧ t = State.resetWith s.cfg) ∨
    (∃ pairs, c = .init pairs ∧ (∀ p ∈ pairs, inMemory p.1) ∧ t = initPairs s pairs) ∨
    (∃ records, c = .load records ∧ records.length ≤ lMax ∧ t = { s with program := records }) ∨
    (c = .runStart ∧ t = s.runStart) := by
  cases c with
  | powerOn =>
    simp only [hostApply, hostPowerOn] at h
    split at h
    · cases h
    · cases h; exact .inl ⟨rfl, rfl⟩
  | init pairs =>
    simp only [hostApply, hostInit] at h
    split at h
    · cases h
    · split at h
      · cases h
      · next hbad =>
        split at h
        · cases h
        · cases h
          exact .inr (.inl ⟨pairs, rfl, fun p hp => by_contra fun hout => hbad ⟨p, hp, hout⟩, rfl⟩)
  | load records =>
    simp only [hostApply, hostLoad] at h
    split at h
    · cases h
    · split at h
      · cases h
      · next hlen => cases h; exact .inr (.inr (.inl ⟨records, rfl, not_lt.1 hlen, rfl⟩))
  | runStart =>
    simp only [hostApply, hostRunStart] at h
    split at h
    · cases h
    · cases h; exact .inr (.inr (.inr ⟨rfl, rfl⟩))

/-- Settles O34, one alternative for each operation. -/
theorem hostOperationsKeepInvariant : Obligations.HostOperationsKeepInvariant := by
  intro c s t h hc
  rcases hostApply_cases hc with ⟨-, rfl⟩ | ⟨pairs, -, haddr, rfl⟩ | ⟨records, -, hlen, rfl⟩ | ⟨-, rfl⟩
  · exact State.resetWith_inv s.cfg
  · exact initPairs_induction h haddr fun t a n ht ha => ht.initPair ha n
  · exact { h with program_fits := hlen }
  · exact h.runStart

/-- A cache without lines is coherent with any memory. -/
theorem State.resetWith_coherent (c : Config) : Coherent (State.resetWith c) := by
  intro a v hv
  rw [State.resetWith_cache, Cache.get_nil] at hv
  cases hv

/-- Settles O32: every invariant holds of the power-on values, and the engine of `State.reset` is one of all engines. -/
theorem resetMeetsTheInvariants : Obligations.ResetMeetsTheInvariants := by
  refine ⟨⟨Config.unknown, rfl⟩,
    fun c => ⟨State.resetWith_inv c, State.resetWith_coherent c, ?_, nofun, nofun⟩⟩
  rw [PcReachable, State.resetWith_pc]
  decide

end Sys2Proof.Machine
end

section
/-! The step (40_execution_cycle.md R112 to R126, 60_exceptions.md R222 to R236): what it answers in every state,
what it keeps, and the fault it leaves. -/

namespace Sys2Proof.Machine

/-! ### What a step answers -/

/-- Settles O21. -/
theorem stepRunsDecodedInstruction : Obligations.StepRunsDecodedInstruction :=
  fun _ _ h => step_of_aboutToRun h

theorem step_of_not_running {s : State} (hs : s.status ≠ .running) : step s = .next s := if_neg hs

/-- Settles O26. -/
theorem stoppedEngineStaysAsItIs : Obligations.StoppedEngineStaysAsItIs :=
  fun _ hs => step_of_not_running hs

/-- A record that does not decode takes the fault of its decode error. -/
theorem step_of_decode_error {s : State} (hx : Executing s) (h0 : 0 ≤ s.pc) (hl : s.pc < s.progLen) {e : DecodeError}
    (he : decodeRecord (s.recordAt s.pc) = .error e) : step s = .next (s.takeFault (faultOfDecodeError e)) := by
  obtain ⟨hs, hr⟩ := hx
  rw [step_of_running hs, loopTurn_of_lt_progLen hr hl]
  simp [stepInstruction, State.fetch, not_lt.2 h0, he]

/-- Settles O23: the two decode faults write the status alone. -/
theorem decodeFaultWritesOnlyStatus : Obligations.DecodeFaultWritesOnlyStatus :=
  fun _ hx h0 hl => ⟨step_of_decode_error hx h0 hl, step_of_decode_error hx h0 hl⟩

theorem exec_total (i : Instr) (s : State) : ∃ t, exec i s = .next t := by
  by_cases ho : OutOfRange i s
  · obtain ⟨ea, hea, hout⟩ := ho
    exact ⟨_, exec_of_outOfRange hea hout⟩
  · exact ⟨_, exec_of_inRange ho⟩

theorem stepInstruction_total (s : State) : ∃ t, stepInstruction s = .next t := by
  unfold stepInstruction
  cases s.fetch with
  | ok i => exact exec_total i s
  | error k => exact ⟨_, rfl⟩

theorem step_total (s : State) : ∃ t, step s = .next t := by
  by_cases hs : s.status = .running
  · rw [step_of_running hs]
    unfold loopTurn
    split
    · exact ⟨_, rfl⟩
    · split
      · exact ⟨_, rfl⟩
      · exact stepInstruction_total s
  · exact ⟨s, step_of_not_running hs⟩

/-- Settles O27. -/
theorem everyStepAnswersANextState : Obligations.EveryStepAnswersANextState := ⟨step_total, exec_total⟩

/-! ### What a step keeps -/

/-- Settles O28: no handler writes either field. -/
theorem stepsNeverChangeTheProgram : Obligations.StepsNeverChangeTheProgram := by
  intro s t h
  rcases step_completes_or_keeps h with ⟨i, -, -, rfl⟩ | ⟨st, fa, rfl⟩
  · exact ⟨handled_program i s, handled_cfg i s⟩
  · exact ⟨rfl, rfl⟩

/-- Settles O29: of all that a step can do, only the handler of HALT writes the flag. -/
theorem onlyHaltClearsRunning : Obligations.OnlyHaltClearsRunning := by
  intro s t h hne
  rcases step_completes_or_keeps h with ⟨i, hi, -, rfl⟩ | ⟨st, fa, rfl⟩
  · have hrunning := handled_running i s
    split at hrunning
    · next hhalt => exact ⟨hhalt ▸ hi, hrunning⟩
    · exact absurd hrunning hne
  · exact absurd rfl hne

/-- Settles O36: each stop check writes its status beside the flag it has just read, and no other step writes either
status. -/
theorem runningFlagTellsTheStopsApart : Obligations.RunningFlagTellsTheStopsApart := by
  intro s t hs h
  rcases step_cases h with ⟨-, rfl⟩ | ⟨-, hr, rfl⟩ | ⟨⟨-, hr⟩, -, rfl⟩ | ⟨-, -, -, rfl⟩ | ⟨-, -, -, e, -, rfl⟩ |
    ⟨i, ⟨⟨hrun, -⟩, -⟩, hx⟩
  · exact hs
  · exact ⟨fun _ => hr, nofun⟩
  · exact ⟨nofun, fun _ => hr⟩
  · exact ⟨nofun, nofun⟩
  · cases e <;> exact ⟨nofun, nofun⟩
  · rcases exec_cases hx with ⟨-, rfl⟩ | ⟨ea, -, -, rfl⟩
    · rw [StopsTellRunning, State.advance_status, handled_status, hrun]
      exact ⟨nofun, nofun⟩
    · exact ⟨nofun, nofun⟩

/-! ### The program counter -/

/-- An instruction that is executed stands below `L_MAX`. -/
theorem pc_lt_lMax_of_aboutToRun {s : State} {i : Instr} (hL : s.program.length ≤ lMax) (h : AboutToRun s i) :
    0 ≤ s.pc ∧ s.pc < 32767 := by
  obtain ⟨-, h0, hl, -⟩ := h
  have hlen : s.progLen ≤ 32767 := Int.ofNat_le.2 hL
  exact ⟨h0, by omega⟩

/-- Settles O20: the link value is at most `L_MAX`, a 16-bit literal, which every engine holds. -/
theorem linkValueNeedsNoWrap : Obligations.LinkValueNeedsNoWrap := by
  intro s i hinv hi
  obtain ⟨h0, hlt⟩ := pc_lt_lMax_of_aboutToRun hinv.program_fits hi
  exact wrap_of_fits (fits_of_litRange s.cfg (by omega))

/-- Where a well-formed instruction below `L_MAX` continues: one past a branch or a target of 16 signed bits, or at the
next index. -/
theorem nextPc_range {i : Instr} {s : State} (hwf : i.wellFormed = true) (h0 : 0 ≤ s.pc) (hlt : s.pc < 32767) :
    -32767 ≤ nextPc i s ∧ nextPc i s ≤ 65534 := by
  have hlit : ∀ n, litOk n = true → -32768 ≤ n ∧ n ≤ 32767 := fun n => of_decide_eq_true
  cases i with
  | bne rs rt offset =>
    have hoff := hlit offset hwf
    rw [nextPc]
    split <;> omega
  | j target | jal target =>
    have htarget := hlit target hwf
    rw [nextPc]
    omega
  | _ => rw [nextPc]; omega

/-- Settles O35: only a completed instruction writes `pc`. -/
theorem programCounterStaysReachable : Obligations.ProgramCounterStaysReachable := by
  intro s t hL hpc h
  rcases step_completes_or_keeps h with ⟨i, hi, -, rfl⟩ | ⟨st, fa, rfl⟩
  · obtain ⟨h0, hlt⟩ := pc_lt_lMax_of_aboutToRun hL hi
    obtain ⟨-, -, -, hdecode⟩ := hi
    rw [PcReachable, handled_advance_pc]
    exact nextPc_range (wellFormed_of_decodeRecord hdecode) h0 hlt
  · exact hpc

/-! ### Faults -/

/-- Settles O24: a fault is taken at the fetch, at the decode or by an access, and `takeFault` writes the status and the
fault address alone. -/
theorem faultsArePrecise : Obligations.FaultsArePrecise := by
  intro s t hs h hfault
  rcases step_cases h with ⟨hidle, -⟩ | ⟨-, -, rfl⟩ | ⟨-, -, rfl⟩ | ⟨-, -, h0, rfl⟩ | ⟨-, h0, hl, e, he, rfl⟩ |
    ⟨i, hi, hx⟩
  · exact absurd hs hidle
  · cases hfault
  · cases hfault
  · exact ⟨rfl, fun _ => rfl, nofun, fun _ => h0, nofun, nofun⟩
  · cases e with
    | unknownInstruction => exact ⟨rfl, fun _ => rfl, nofun, nofun, fun _ => ⟨h0, hl, he⟩, nofun⟩
    | malformedInstruction => exact ⟨rfl, fun _ => rfl, nofun, nofun, nofun, fun _ => ⟨h0, hl, he⟩⟩
  · rcases exec_cases hx with ⟨-, rfl⟩ | ⟨ea, hea, hout, rfl⟩
    · rw [State.advance_status, handled_status, hs] at hfault
      cases hfault
    · exact ⟨rfl, fun hne => absurd rfl hne, fun _ => ⟨i, ea, hi, hea, hout, rfl⟩, nofun, nofun, nofun⟩

/-! ### The straight-line run -/

/-- Along a run that never stops, and whose instructions are no HALT and continue at the next index, each step
moves `pc` by 1 and keeps the running flag and the program. -/
theorem straightLine_run {s : State} {N : Nat} (hx : Executing s) (hpc : s.pc = 0)
    (hline : ∀ k (a : State) i, k < N → Host.Core.run Sys2Proof.core k s = .next a → AboutToRun a i →
      i ≠ .halt ∧ nextPc i a = a.pc + 1)
    (hrun : ∀ k (t : State), k ≤ N → Host.Core.run Sys2Proof.core k s = .next t → t.status = .running)
    {k : Nat} (hk : k ≤ N) :
    ∃ t : State, Host.Core.run Sys2Proof.core k s = .next t ∧ t.pc = k ∧ t.running = true ∧ t.program = s.program := by
  induction k with
  | zero => exact ⟨s, run_zero s, hpc, hx.2, rfl⟩
  | succ k ih =>
    obtain ⟨t, ht, htpc, htrunning, htprogram⟩ := ih (by omega)
    obtain ⟨u, hu⟩ := step_total t
    have hru := run_succ_of_run ht hu
    rcases step_completes_or_stops (hrun k t (by omega) ht) hu with ⟨i, hi, rfl⟩ | ⟨hstop, -⟩
    · obtain ⟨hhalt, hnext⟩ := hline k t i hk ht hi
      refine ⟨_, hru, ?_, ?_, ?_⟩
      · rw [handled_advance_pc, hnext, htpc]
        exact (Nat.cast_succ k).symm
      · rw [State.advance_running, handled_running, if_neg hhalt, htrunning]
      · rw [State.advance_program, handled_program, htprogram]
    · exact absurd (hrun (k + 1) u hk hru) hstop

/-- Settles O30: after `N` steps of the straight line `pc` is the program's length, and the second stop check
answers. -/
theorem straightLineRunExhausts : Obligations.StraightLineRunExhausts := by
  intro s N hx hpc hN hline hrun
  obtain ⟨t, ht, htpc, htrunning, htprogram⟩ := straightLine_run hx hpc hline hrun le_rfl
  have hend : t.progLen ≤ t.pc := by rw [State.progLen, htprogram, hN, htpc]
  refine ⟨t, ht, htpc, htrunning, run_succ_of_run ht ?_⟩
  rw [step_of_running (hrun N t le_rfl ht), loopTurn_of_progLen_le htrunning hend]

end Sys2Proof.Machine
end

section
/-! The engine's parameters show only in `wrap` (41_alu.md R144): a run that never wraps is the same run on every engine
wide enough for it. -/

namespace Sys2Proof.Machine

/-- The same state on an engine with other parameters. -/
def State.onEngine (s : State) (c : Config) : State := { s with cfg := c }

theorem State.readEffect_onEngine (s : State) (c : Config) (a : Nat) :
    (s.onEngine c).readEffect a = (s.readEffect a).onEngine c := by
  cases h : Cache.get s.cache a with
  | none => rw [(readPath_miss h).2, (readPath_miss (s := s.onEngine c) h).2]; rfl
  | some v => rw [(readPath_hit h).2, (readPath_hit (s := s.onEngine c) h).2]

/-- A handler whose exact result, if any, both engines hold does the same on both. -/
theorem handled_onEngine {i : Instr} {s : State} {c : Config}
    (h : ∀ r, exactResult i s = some r → fits s.cfg r ∧ fits c r) :
    handled i (s.onEngine c) = (handled i s).onEngine c := by
  have hwrap : ∀ r, exactResult i s = some r → wrap c r = wrap s.cfg r := fun r hr =>
    (wrap_of_fits (h r hr).2).trans (wrap_of_fits (h r hr).1).symm
  cases i with
  | add rd rs rt | sub rd rs rt => exact congrArg (State.setReg (s.onEngine c) rd) (hwrap _ rfl)
  | addi rt rs imm => exact congrArg (State.setReg (s.onEngine c) rt) (hwrap _ rfl)
  | jal target => exact congrArg (fun v => (State.setReg (s.onEngine c) linkReg v).setPc target) (hwrap _ rfl)
  | slt rd rs rt => rfl
  | bne rs rt offset => rw [handled_bne, handled_bne]; rfl
  | j target => rfl
  | lw rt offset rs =>
    exact congrArg (fun t : State => t.setReg rt (s.readValue (effectiveAddress s rs offset).toNat))
      (State.readEffect_onEngine s c _)
  | sw rt offset rs => rfl
  | cache code =>
    rw [handled, handled, State.cacheControl, State.cacheControl]
    split_ifs <;> rfl
  | halt => rfl

theorem dataAddress_onEngine (i : Instr) (s : State) (c : Config) : dataAddress i (s.onEngine c) = dataAddress i s := by
  cases i <;> rfl

theorem exec_onEngine {i : Instr} {s t : State} {c : Config}
    (h : ∀ r, exactResult i s = some r → fits s.cfg r ∧ fits c r) (hx : exec i s = .next t) :
    exec i (s.onEngine c) = .next (t.onEngine c) := by
  rcases exec_cases hx with ⟨hin, rfl⟩ | ⟨ea, hea, hout, rfl⟩
  · have hin' : ¬ OutOfRange i (s.onEngine c) := by rwa [OutOfRange, dataAddress_onEngine]
    rw [exec_of_inRange hin', handled_onEngine h]
    rfl
  · exact exec_of_outOfRange ((dataAddress_onEngine i s c).trans hea) hout

/-- The stop checks, the fetch and the decode read no parameter, so only the instruction executed can tell the engines
apart. -/
theorem step_onEngine {s t : State} {c : Config}
    (h : ∀ i r, AboutToRun s i → exactResult i s = some r → fits s.cfg r ∧ fits c r) (hstep : step s = .next t) :
    step (s.onEngine c) = .next (t.onEngine c) := by
  rcases step_cases hstep with ⟨hidle, rfl⟩ | ⟨hs, hr, rfl⟩ | ⟨⟨hs, hr⟩, hl, rfl⟩ | ⟨⟨hs, hr⟩, hl, h0, rfl⟩ |
    ⟨hx, h0, hl, e, he, rfl⟩ | ⟨i, hi, hx⟩
  · exact step_of_not_running hidle
  · exact (step_of_running (s := s.onEngine c) hs).trans (loopTurn_of_not_running hr)
  · exact (step_of_running (s := s.onEngine c) hs).trans (loopTurn_of_progLen_le hr hl)
  · exact (step_of_running (s := s.onEngine c) hs).trans
      ((loopTurn_of_lt_progLen (s := s.onEngine c) hr hl).trans (stepInstruction_of_neg_pc h0))
  · exact step_of_decode_error (s := s.onEngine c) hx h0 hl he
  · exact (step_of_aboutToRun (s := s.onEngine c) hi).trans (exec_onEngine (fun r => h i r hi) hx)

theorem run_onEngine {n : Nat} {s t : State} {c : Config}
    (h : ∀ k (a : State) i r, k < n → Host.Core.run Sys2Proof.core k s = .next a → AboutToRun a i →
      exactResult i a = some r → fits s.cfg r ∧ fits c r)
    (hrun : Host.Core.run Sys2Proof.core n s = .next t) :
    Host.Core.run Sys2Proof.core n (s.onEngine c) = .next (t.onEngine c) := by
  induction n generalizing s with
  | zero => cases hrun; rfl
  | succ n ih =>
    obtain ⟨u, hu⟩ := step_total s
    obtain ⟨-, hcfg⟩ := stepsNeverChangeTheProgram s u hu
    rw [run_succ_of_step n hu] at hrun
    rw [run_succ_of_step n (step_onEngine (h 0 s · · n.succ_pos (run_zero s)) hu)]
    refine ih (fun k a i r hk ha => ?_) hrun
    rw [hcfg]
    exact h (k + 1) a i r (Nat.succ_lt_succ hk) ((run_succ_of_step k hu).trans ha)

/-- Settles O43, by induction on the length of the run. -/
theorem runIsIndependentOfSufficientWidth : Obligations.RunIsIndependentOfSufficientWidth := by
  intro n s u t hagree h hrun
  rw [hagree]
  exact run_onEngine h hrun

end Sys2Proof.Machine
end

section
/-! The run loop under a budget (40_execution_cycle.md R125, R133, R137). -/

namespace Sys2Proof.Machine

theorem runLoop_of_stop {s : State} {stop : Stop} (h : s.stop? = some stop) (fuel : Nat) :
    runLoop fuel s = .stopped stop s := by
  cases fuel <;> simp [runLoop, h]

theorem runLoop_zero_of_no_stop {s : State} (h : s.stop? = none) : runLoop 0 s = .outOfFuel s := by
  simp [runLoop, h]

theorem runLoop_succ_of_no_stop {s t : State} (h : s.stop? = none) (hstep : step s = .next t) (fuel : Nat) :
    runLoop (fuel + 1) s = runLoop fuel t := by
  simp [runLoop, h, hstep]

/-- A state that stands at a stop is the one its loop answers. -/
theorem eq_of_runLoop_stopped_of_stop {n : Nat} {s t : State} {stop stop' : Stop} (hs : s.stop? = some stop')
    (h : runLoop n s = .stopped stop t) : s = t ∧ stop' = stop := by
  rw [runLoop_of_stop hs] at h
  cases h
  exact ⟨rfl, rfl⟩

/-- A loop that has stopped stands at that stop, and it stops there under every larger budget. -/
theorem runLoop_stopped {n : Nat} {s t : State} {stop : Stop} (h : runLoop n s = .stopped stop t) :
    t.stop? = some stop ∧ ∀ m, n ≤ m → runLoop m s = .stopped stop t := by
  induction n generalizing s with
  | zero =>
    cases hs : s.stop? with
    | some stop' =>
      obtain ⟨rfl, rfl⟩ := eq_of_runLoop_stopped_of_stop hs h
      exact ⟨hs, fun m _ => runLoop_of_stop hs m⟩
    | none => rw [runLoop_zero_of_no_stop hs] at h; cases h
  | succ n ih =>
    cases hs : s.stop? with
    | some stop' =>
      obtain ⟨rfl, rfl⟩ := eq_of_runLoop_stopped_of_stop hs h
      exact ⟨hs, fun m _ => runLoop_of_stop hs m⟩
    | none =>
      obtain ⟨u, hu⟩ := step_total s
      rw [runLoop_succ_of_no_stop hs hu] at h
      obtain ⟨hstop, hmore⟩ := ih h
      refine ⟨hstop, fun m hm => ?_⟩
      obtain ⟨m, rfl⟩ := Nat.exists_eq_succ_of_ne_zero (Nat.ne_zero_of_lt hm)
      rw [runLoop_succ_of_no_stop hs hu]
      exact hmore m (Nat.le_of_succ_le_succ hm)

/-- A host run that is not refused is the loop from the run start. -/
theorem hostRun_eq_ok {n : Nat} {s : State} {r : RunResult} (h : hostRun n s = .ok r) :
    ∃ u, hostRunStart s = .ok u ∧ r = runLoop n u := by
  unfold hostRun at h
  split at h
  · next u hu => exact ⟨u, hu, (Except.ok.inj h).symm⟩
  · cases h

/-- Settles O59: the run start does not read the budget, and a loop that has stopped ignores what is left of it. -/
theorem moreFuelNeverChangesAStop : Obligations.MoreFuelNeverChangesAStop := by
  intro n m s stop t hle h
  obtain ⟨u, hu, hloop⟩ := hostRun_eq_ok h
  rw [hostRun_of_hostRunStart m hu, (runLoop_stopped hloop.symm).2 m hle]

/-- The stop a state stands at is the one its status names, a fault with the state's `pc` and fault address. -/
theorem status_of_stop {t : State} {stop : Stop} (h : t.stop? = some stop) :
    (t.status = .halted ∧ stop = .halted) ∨ (t.status = .exhausted ∧ stop = .exhausted) ∨
    (t.status.isFault = true ∧ ∃ k, stop = .fault k t.pc ∧ k.status = t.status ∧
      (∀ ea, k = .addressOutOfRange ea → ea = t.faultAddr)) := by
  unfold State.stop? at h
  cases hs : t.status <;> rw [hs] at h <;> cases h
  case halted => exact .inl ⟨rfl, rfl⟩
  case exhausted => exact .inr (.inl ⟨rfl, rfl⟩)
  case malformedInstruction => exact .inr (.inr ⟨rfl, _, rfl, rfl, nofun⟩)
  case unknownInstruction => exact .inr (.inr ⟨rfl, _, rfl, rfl, nofun⟩)
  case addressOutOfRange =>
    exact .inr (.inr ⟨rfl, _, rfl, rfl, fun _ hea => (FaultKind.addressOutOfRange.inj hea).symm⟩)
  case pcOutOfRange => exact .inr (.inr ⟨rfl, _, rfl, rfl, nofun⟩)

/-- Settles O60: the loop returns the stop at which its last state stands. -/
theorem runEndsOnlyAtAStop : Obligations.RunEndsOnlyAtAStop := by
  intro n s stop t h
  obtain ⟨u, -, hloop⟩ := hostRun_eq_ok h
  exact status_of_stop (runLoop_stopped hloop.symm).1

end Sys2Proof.Machine
end

section
/-! Values (00_scope.md R9, 20_memory.md R50): `wrap` picks the one congruent pattern, and equal memories are
equal data. -/

namespace Sys2Proof.Machine

/-- Settles O19: `wrap` is the balanced remainder by `2^XLEN`, which is congruent to its argument, is the same for
congruent integers, and leaves a pattern as it is. -/
theorem wrapIsTheCongruentPattern : Obligations.WrapIsTheCongruentPattern := by
  intro c n
  have hpow : (2 ^ c.xlen : Int) = ((2 ^ c.xlen : Nat) : Int) := by push_cast; rfl
  refine ⟨fits_wrap c n, ?_, fun v hv hdvd => ?_⟩
  · rw [wrap_eq_bmod, hpow]
    exact Int.dvd_bmod_sub_self
  · rw [hpow] at hdvd
    calc v = wrap c v := (wrap_of_fits hv).symm
      _ = v.bmod (2 ^ c.xlen) := wrap_eq_bmod c v
      _ = n.bmod (2 ^ c.xlen) := Int.bmod_eq_bmod_iff_bmod_sub_eq_zero.2 (Int.bmod_eq_zero_of_dvd hdvd)
      _ = wrap c n := (wrap_eq_bmod c n).symm

/-- Two rising lists with the same entries are equal. -/
theorem Cells.eq_of_rising {cs ds : Cells} (hc : cs.Pairwise (fun p q => p.1 < q.1))
    (hd : ds.Pairwise (fun p q => p.1 < q.1)) (h : ∀ p, p ∈ cs ↔ p ∈ ds) : cs = ds := by
  have hnodup : ∀ {es : Cells}, es.Pairwise (fun p q => p.1 < q.1) → es.Nodup := fun he =>
    he.imp fun hlt heq => absurd hlt (by rw [heq]; exact lt_irrefl _)
  refine ((List.perm_ext_iff_of_nodup (hnodup hc) (hnodup hd)).2 h).eq_of_pairwise ?_ hc hd
  exact fun p q _ _ hpq hqp => absurd hpq hqp.not_gt

/-- Settles O17: a canonical memory lists exactly its non-zero cells, in the one rising order. -/
theorem canonicalMemoriesReadingAlikeAreEqual : Obligations.CanonicalMemoriesReadingAlikeAreEqual := by
  intro m₁ m₂ h₁ h₂ hread
  have ⟨⟨hrising₁, _⟩, _⟩ := h₁
  have ⟨⟨hrising₂, _⟩, _⟩ := h₂
  refine Cells.eq_of_rising hrising₁ hrising₂ fun ⟨a, v⟩ => ?_
  rw [Memory.mem_iff_read h₁, Memory.mem_iff_read h₂, hread a]

end Sys2Proof.Machine
end

section
/-! Frames of the eleven instructions (10_state.md R23, 20_memory.md R67, 60_exceptions.md R226): what an instruction
may write, and what it leaves. -/

namespace Sys2Proof.Machine

/-! ### Registers -/

theorem handled_reg_of_ne_destination {i : Instr} {s : State} {r : Reg} (h : destination i ≠ some r) :
    (handled i s).reg r = s.reg r := by
  have hne : ∀ d, destination i = some d → d ≠ r := fun d hd hdr => h (hd.trans (congrArg some hdr))
  cases i with
  | add rd | addi rd | sub rd | slt rd | jal => exact State.reg_setReg_ne s _ (hne _ rfl)
  | lw rt => exact (State.reg_setReg_ne _ _ (hne _ rfl)).trans (State.reg_readEffect s _ r)
  | bne rs rt offset => rw [handled_bne, State.reg_setPc]
  | sw => exact State.reg_writePath ..
  | cache code => exact State.reg_cacheControl s code r
  | j | halt => rfl

/-- Settles O13: a handler writes its destination alone, and a fault writes no register. -/
theorem onlyDestinationRegisterChanges : Obligations.OnlyDestinationRegisterChanges := by
  intro i s t h r hr
  rcases exec_cases h with ⟨-, rfl⟩ | ⟨ea, -, -, rfl⟩
  · exact handled_reg_of_ne_destination hr
  · rfl

/-! ### Memory -/

/-- Every handler but that of SW leaves the MemoryBus. -/
theorem handled_mem_of_ne_sw {i : Instr} (s : State) (h : ∀ rt offset rs, i ≠ .sw rt offset rs) :
    (handled i s).mem = s.mem := by
  cases i with
  | sw rt offset rs => exact absurd rfl (h rt offset rs)
  | bne rs rt offset => rw [handled_bne, State.setPc_mem]
  | lw => exact State.readEffect_mem s _
  | cache code => exact State.cacheControl_mem s code
  | _ => rfl

theorem storedCell_sw_eq_some_iff {rt rs : Reg} {offset : Int} {s : State} {a : Nat} :
    storedCell (.sw rt offset rs) s = some a ↔
      inMemory (effectiveAddress s rs offset) ∧ (effectiveAddress s rs offset).toNat = a := by
  rw [storedCell, Option.ite_none_right_eq_some, Option.some_inj]

/-- A store to a cell of the MemoryBus is `WritePath` and the generic increment. -/
theorem exec_sw_of_inMemory {rt rs : Reg} {offset : Int} {s : State} (h : inMemory (effectiveAddress s rs offset)) :
    exec (.sw rt offset rs) s = .next (s.writePath (effectiveAddress s rs offset).toNat (s.reg rt)).advance :=
  exec_of_address_inside rfl h.1 h.2

/-- Settles O14: a completed SW is one write of the MemoryBus, and nothing else writes it. -/
theorem onlyStoredCellChanges : Obligations.OnlyStoredCellChanges := by
  intro i s t hwf h
  constructor
  · intro a ha
    rcases exec_cases h with ⟨hin, rfl⟩ | ⟨ea, -, -, rfl⟩
    · rw [State.advance_mem]
      by_cases hsw : ∃ rt offset rs, i = .sw rt offset rs
      · obtain ⟨rt, offset, rs, rfl⟩ := hsw
        have hne : a ≠ (effectiveAddress s rs offset).toNat := fun heq =>
          ha (storedCell_sw_eq_some_iff.2 ⟨inMemory_of_not_outOfRange hin rfl, heq.symm⟩)
        rw [handled, State.writePath_mem, Memory.read_write hwf, if_neg hne]
      · rw [handled_mem_of_ne_sw s fun rt offset rs hi => hsw ⟨rt, offset, rs, hi⟩]
    · rfl
  · rintro rt offset rs a rfl ha
    obtain ⟨hin, rfl⟩ := storedCell_sw_eq_some_iff.1 ha
    rw [exec_sw_of_inMemory hin] at h
    cases h
    rw [State.advance_mem, State.writePath_mem, Memory.read_write hwf, if_pos rfl]

/-! ### The cache lines and the control state -/

/-- What a handler can do to a line: nothing, the flush, the fill of a load that misses, or the fill of a store, the
last two under an enabled cache alone. -/
theorem handled_line_cases (i : Instr) (s : State) (a : Nat) :
    Cache.get (handled i s).cache a = Cache.get s.cache a ∨
    i = .cache 2 ∨
    (∃ rt offset rs, i = .lw rt offset rs ∧ a = (effectiveAddress s rs offset).toNat ∧
      Cache.get s.cache a = none ∧ Cache.get (handled i s).cache a = some (Memory.read s.mem a)) ∨
    ∃ rt offset rs, i = .sw rt offset rs ∧ a = (effectiveAddress s rs offset).toNat ∧ s.enabled = true := by
  cases i with
  | lw rt offset rs =>
    have hline := cacheGet_readEffect s (effectiveAddress s rs offset).toNat a
    split at hline
    · next hfill =>
      obtain ⟨-, rfl, hmiss⟩ := hfill
      exact .inr (.inr (.inl ⟨rt, offset, rs, rfl, rfl, hmiss, hline⟩))
    · exact .inl hline
  | sw rt offset rs =>
    have hline := cacheGet_writePath s (effectiveAddress s rs offset).toNat a (s.reg rt)
    split at hline
    · next hfill => exact .inr (.inr (.inr ⟨rt, offset, rs, rfl, hfill.2, hfill.1⟩))
    · exact .inl hline
  | cache code =>
    by_cases hcode : code = 2
    · exact .inr (.inl (by rw [hcode]))
    · exact .inl (by rw [handled, State.cacheControl_cache, if_neg hcode])
  | bne rs rt offset => exact .inl (by rw [handled_bne, State.setPc_cache])
  | _ => exact .inl rfl

/-- Only CACHE's handler writes the enabled flag. -/
theorem handled_enabled (i : Instr) (s : State) :
    (handled i s).enabled = if i = .cache 0 then false else if i = .cache 1 then true else s.enabled := by
  cases i with
  | cache code => simp [handled]
  | bne rs rt offset => rw [handled_bne]; rfl
  | lw => exact State.readEffect_enabled s _
  | sw => exact State.writePath_enabled s _ _
  | _ => rfl

theorem accessedCell_of_not_outOfRange {i : Instr} {s : State} {ea : Int} (h : ¬ OutOfRange i s)
    (hea : dataAddress i s = some ea) : accessedCell i s = some ea.toNat := by
  have hin := inMemory_of_not_outOfRange h hea
  cases i with
  | lw | sw => cases hea; exact if_pos hin
  | _ => cases hea

/-- Settles O15: the fields a handler keeps, beside those that taking AddressOutOfRange keeps. -/
theorem controlStateFrame : Obligations.ControlStateFrame := by
  intro i s t h
  rcases exec_cases h with ⟨hin, rfl⟩ | ⟨ea, hea, hout, rfl⟩
  · refine ⟨handled_cfg i s, handled_program i s, handled_running i s, handled_enabled i s,
      fun ea hea hout => absurd (inMemory_of_not_outOfRange hin hea) hout,
      fun _ => ⟨handled_status i s, handled_faultAddr i s⟩, fun a hflush hcell => ?_⟩
    rcases handled_line_cases i s a with hkeep | rfl | ⟨rt, offset, rs, rfl, rfl, -⟩ | ⟨rt, offset, rs, rfl, rfl, -⟩
    · exact hkeep
    · exact absurd rfl hflush
    · exact absurd (accessedCell_of_not_outOfRange hin rfl) hcell
    · exact absurd (accessedCell_of_not_outOfRange hin rfl) hcell
  · have hcache : ∀ code, i ≠ .cache code := by rintro code rfl; cases hea
    have hhalt : i ≠ .halt := by rintro rfl; cases hea
    refine ⟨rfl, rfl, (if_neg hhalt).symm, by rw [if_neg (hcache 0), if_neg (hcache 1), State.takeFault_enabled],
      fun ea' hea' _ => ?_, fun hin => absurd (hin ea hea) hout, fun _ _ _ => rfl⟩
    obtain rfl : ea = ea' := Option.some.inj (hea.symm.trans hea')
    exact ⟨rfl, rfl, rfl⟩

end Sys2Proof.Machine
end

section
/-! Coherence (20_memory.md R62 to R64): what keeps it, what breaks it, and what it hides. -/

namespace Sys2Proof.Machine

/-! ### Instructions -/

theorem Coherent.congr {s t : State} (h : Coherent s) (hmem : t.mem = s.mem)
    (hcache : ∀ a, Cache.get t.cache a = Cache.get s.cache a) : Coherent t := by
  intro a v hv
  rw [hmem]
  exact h a v ((hcache a).symm.trans hv)

/-- Every handler but that of SW keeps coherence: the one line it can write is a load's, with the cell's own value. -/
theorem Coherent.handled_of_ne_sw {i : Instr} {s : State} (h : Coherent s)
    (hsw : ∀ rt offset rs, i ≠ .sw rt offset rs) :
    Coherent (handled i s) := by
  intro a v hv
  rw [handled_mem_of_ne_sw s hsw]
  rcases handled_line_cases i s a with hkeep | rfl | ⟨rt, offset, rs, -, -, -, hfill⟩ | ⟨rt, offset, rs, hi, -⟩
  · exact h a v (hkeep.symm.trans hv)
  · exact absurd hv (by rw [handled, State.cacheControl_flush, State.cacheFlush_cache, Cache.get_flushed]; nofun)
  · exact Option.some.inj (hv.symm.trans hfill)
  · exact absurd hi (hsw rt offset rs)

/-- A store breaks coherence exactly when it passes by a valid line with another value. -/
theorem coherent_writePath_iff {s : State} (h : Coherent s) (hwf : Memory.wf s.mem) (a : Nat) (v : Word) :
    Coherent (s.writePath a v) ↔ ¬ (s.enabled = false ∧ ∃ w, Cache.get s.cache a = some w ∧ w ≠ v) := by
  have hread : ∀ b, Memory.read (s.writePath a v).mem b = if b = a then v else Memory.read s.mem b := fun b => by
    rw [State.writePath_mem, Memory.read_write hwf]
  constructor
  · rintro hcoh ⟨hdisabled, w, hw, hne⟩
    have hline : Cache.get (s.writePath a v).cache a = some w := by rw [cacheGet_writePath]; simp [hdisabled, hw]
    exact hne ((hcoh a w hline).trans ((hread a).trans (if_pos rfl)))
  · intro hno b w hb
    rw [hread]
    rw [cacheGet_writePath] at hb
    split at hb
    · next hfill => rw [if_pos hfill.2]; exact (Option.some.inj hb).symm
    · next hkeep =>
      split
      · next hba =>
        subst hba
        by_contra hne
        exact hno ⟨by simpa using hkeep, w, hb, hne⟩
      · exact h b w hb

/-- Settles O37: among the instructions only a completed SW writes a cell without its line. -/
theorem onlyDisabledStoresBreakCoherence : Obligations.OnlyDisabledStoresBreakCoherence := by
  intro i s t hinv hcoh h
  rcases exec_cases h with ⟨hin, rfl⟩ | ⟨ea, hea, hout, rfl⟩
  · change Coherent (handled i s) ↔ _
    by_cases hsw : ∃ rt offset rs, i = .sw rt offset rs
    · obtain ⟨rt, offset, rs, rfl⟩ := hsw
      rw [handled, coherent_writePath_iff hcoh hinv.mem_wf, not_iff_not]
      constructor
      · rintro ⟨hdisabled, w, hw, hne⟩
        exact ⟨rt, offset, rs, w, rfl, inMemory_of_not_outOfRange hin rfl, hdisabled, hw, hne⟩
      · rintro ⟨_, _, _, w, ⟨⟩, -, hdisabled, hw, hne⟩
        exact ⟨hdisabled, w, hw, hne⟩
    · refine iff_of_true (hcoh.handled_of_ne_sw fun rt offset rs hi => hsw ⟨rt, offset, rs, hi⟩) ?_
      rintro ⟨rt, offset, rs, v, hi, -⟩
      exact hsw ⟨rt, offset, rs, hi⟩
  · refine iff_of_true (hcoh.congr rfl fun _ => rfl) ?_
    rintro ⟨rt, offset, rs, v, rfl, hin, -⟩
    cases hea
    exact hout hin

/-- Settles O39: the handler's alternatives for a valid line leave CACHE 2 and the store under an enabled cache. -/
theorem validLinePersists : Obligations.ValidLinePersists := by
  intro s t a v hv h
  rcases step_completes_or_keeps h with ⟨i, hi, hin, rfl⟩ | ⟨st, fa, rfl⟩
  · rcases handled_line_cases i s a with hkeep | rfl | ⟨_, _, _, -, -, hmiss, -⟩ | ⟨rt, offset, rs, rfl, rfl, henabled⟩
    · exact .inl (hkeep.trans hv)
    · exact .inr (.inl hi)
    · rw [hv] at hmiss
      cases hmiss
    · exact .inr (.inr ⟨rt, offset, rs, hi, henabled,
        storedCell_sw_eq_some_iff.2 ⟨inMemory_of_not_outOfRange hin rfl, rfl⟩⟩)
  · exact .inl hv

/-! ### Host operations -/

/-- A pair of the initialisation feed writes the line and the cell alike. -/
theorem Coherent.initPair {s : State} (h : Coherent s) (hwf : Memory.wf s.mem) (a : Nat) (n : Int) :
    Coherent (initPair s a n) := by
  intro b v hv
  have hline := (Cache.get_fill s.cache a b (wrap s.cfg n)).symm.trans hv
  have hread := Memory.read_write hwf a (wrap s.cfg n) b
  refine Eq.trans ?_ hread.symm
  split at hline
  · next hba => rw [if_pos hba]; exact (Option.some.inj hline).symm
  · next hba => rw [if_neg hba]; exact h b v hline

/-- A run start breaks coherence exactly when it clears the cells under a line that is not zero. -/
theorem coherent_runStart_iff {s : State} (h : Coherent s) :
    Coherent s.runStart ↔ ¬ (s.cfg.runResetsMemory = true ∧ s.cfg.runResetsCache = false ∧
      ∃ a v, Cache.get s.cache a = some v ∧ v ≠ 0) := by
  unfold Coherent
  rw [State.runStart_mem, State.runStart_cache]
  cases hc : s.cfg.runResetsCache with
  | true => simp
  | false =>
    cases hm : s.cfg.runResetsMemory with
    | true => simp
    | false => simpa [Coherent] using h

/-- Settles O38, one alternative for each operation. -/
theorem onlyHalfResettingRunStartBreaksCoherence : Obligations.OnlyHalfResettingRunStartBreaksCoherence := by
  intro c s t hinv hcoh hc
  rcases hostApply_cases hc with ⟨rfl, rfl⟩ | ⟨pairs, rfl, haddr, rfl⟩ | ⟨records, rfl, -, rfl⟩ | ⟨rfl, rfl⟩
  · exact iff_of_true (State.resetWith_coherent s.cfg) nofun
  · have hfeed := initPairs_induction (P := fun t => t.Inv ∧ Coherent t) ⟨hinv, hcoh⟩ haddr
      fun t a n ht ha => ⟨ht.1.initPair ha n, ht.2.initPair ht.1.mem_wf a n⟩
    exact iff_of_true hfeed.2 nofun
  · exact iff_of_true hcoh nofun
  · rw [coherent_runStart_iff hcoh]
    simp

/-! ### What coherence hides -/

/-- Under coherence `ReadPath` gives the cell, on a hit as on a miss. -/
theorem Coherent.readValue {s : State} (h : Coherent s) (a : Nat) : s.readValue a = Memory.read s.mem a := by
  cases hc : Cache.get s.cache a with
  | none => exact (readPath_miss hc).1
  | some v => exact (readPath_hit hc).1.trans (h a v hc)

theorem State.readEffect_eq (s : State) (a : Nat) : s.readEffect a = { s with cache := (s.readEffect a).cache } := by
  cases hc : Cache.get s.cache a with
  | none => rw [(readPath_miss hc).2]; rfl
  | some v => rw [(readPath_hit hc).2]

/-- Handlers see the cache through the values of `ReadPath` alone. -/
theorem handled_agreeButCache {i : Instr} {s u : State} (h : AgreeButCache s u)
    (hvalue : ∀ a, u.readValue a = s.readValue a) : AgreeButCache (handled i s) (handled i u) := by
  obtain ⟨c, e, rfl⟩ : ∃ c e, u = { s with cache := c, enabled := e } := ⟨_, _, h⟩
  cases i with
  | lw rt offset rs =>
    rw [handled, handled, State.readEffect_eq s, State.readEffect_eq { s with cache := c, enabled := e }, hvalue]
    rfl
  | bne rs rt offset => rw [handled_bne, handled_bne]; rfl
  | cache code =>
    rw [handled, handled, State.cacheControl, State.cacheControl]
    split_ifs <;> rfl
  | _ => rfl

theorem dataAddress_of_agreeButCache {s u : State} (h : AgreeButCache s u) (i : Instr) :
    dataAddress i u = dataAddress i s := by
  rw [h]
  cases i <;> rfl

/-- Settles O40: coherent states that agree but for the cache read the same values, so their handlers do the same. -/
theorem coherentCacheIsInvisible : Obligations.CoherentCacheIsInvisible := by
  intro i s u t v hagree hs hu ht hv
  have haddr := dataAddress_of_agreeButCache hagree i
  by_cases ho : OutOfRange i s
  · obtain ⟨ea, hea, hout⟩ := ho
    rw [exec_of_outOfRange hea hout] at ht
    rw [exec_of_outOfRange (haddr.trans hea) hout] at hv
    cases ht
    cases hv
    rw [hagree]
    rfl
  · have ho' : ¬ OutOfRange i u := by rwa [OutOfRange, haddr]
    rw [exec_of_inRange ho] at ht
    rw [exec_of_inRange ho'] at hv
    cases ht
    cases hv
    have hmem : u.mem = s.mem := by rw [hagree]
    have hhandled := handled_agreeButCache (i := i) hagree fun a => by rw [hu.readValue, hs.readValue, hmem]
    rw [AgreeButCache] at hhandled ⊢
    rw [hhandled]
    rfl

/-! ### The load after a store -/

/-- Settles O41: the store leaves its value in the cell and, the cache being enabled, in the line, which the
load hits. -/
theorem loadAfterEnabledStoreReturnsTheValue : Obligations.LoadAfterEnabledStoreReturnsTheValue := by
  intro rt offset rs s t hinv henabled hcell ht rd offset' rs' u hea hu
  obtain ⟨a, ha⟩ := Option.ne_none_iff_exists'.1 hcell
  obtain ⟨hin, rfl⟩ := storedCell_sw_eq_some_iff.1 ha
  have hstore := Host.Outcome.next.inj ((exec_sw_of_inMemory hin).symm.trans ht)
  have hline : Cache.get t.cache (effectiveAddress s rs offset).toNat = some (s.reg rt) := by
    rw [← hstore, State.advance_cache, cacheGet_writePath, if_pos ⟨henabled, rfl⟩]
  refine ⟨?_, hline, ?_⟩
  · rw [← hea] at hline hin
    rw [exec_lw_hit rd hin.1 hin.2 hline] at hu
    cases hu
    exact State.reg_setReg_self t rd _
  · rw [← hstore, State.advance_mem, State.writePath_mem, Memory.read_write hinv.mem_wf, if_pos rfl]

end Sys2Proof.Machine
end

section
/-! Packed words (30_encoding.md R88 to R99): their fields, the two round trips, and which words are rejected how. -/

namespace Sys2Proof

open Machine

/-! ### Fields -/

theorem toNat_tagField (w : PackedWord) : (tagField w).toNat = w.toNat / 2 ^ 28 := by
  have hw := w.isLt
  rw [tagField, BitVec.extractLsb'_toNat, Nat.shiftRight_eq_div_pow, Nat.mod_eq_of_lt (by omega)]

/-- A three-bit field is its bits read unsigned. -/
theorem val_toFin_extractLsb' (w : PackedWord) (start : Nat) :
    (w.extractLsb' start 3).toFin.val = w.toNat / 2 ^ start % 8 := by
  rw [BitVec.val_toFin, BitVec.extractLsb'_toNat, Nat.shiftRight_eq_div_pow]

/-- The literal field is the low 16 bits read in two's complement. -/
theorem litField_eq (w : PackedWord) :
    litField w =
      if w.toNat % 65536 < 32768 then (w.toNat % 65536 : Int) else (w.toNat % 65536 : Int) - 65536 := by
  rw [litField, BitVec.toInt_eq_toNat_cond, BitVec.extractLsb'_toNat]
  split <;> split <;> omega

/-- Settles O44. -/
theorem fieldsReadTheirBits : Obligations.FieldsReadTheirBits := fun w =>
  ⟨toNat_tagField w, val_toFin_extractLsb' w 25, val_toFin_extractLsb' w 22, val_toFin_extractLsb' w 19,
    litField_eq w⟩

/-- Settles O45: eight closed words, evaluated. -/
theorem writtenOutWordsDecode : Obligations.WrittenOutWordsDecode := by
  unfold Obligations.WrittenOutWordsDecode
  decide

/-! ### What a word decodes to -/

/-- The alternatives of decoding a word, in the decoder's order: the tag, then the reserved bits. -/
theorem decodeWord_cases (w : PackedWord) :
    (Op.ofTag (tagField w) = none ∧ decodeWord w = .error .unknownInstruction) ∨
    ∃ op : Op, tagField w = op.tag ∧
      ((w &&& op.format.reservedMask ≠ 0 ∧ decodeWord w = .error .malformedInstruction) ∨
        (w &&& op.format.reservedMask = 0 ∧
          decodeWord w = .ok (op.instrOfFields (fieldA w) (fieldB w) (fieldC w) (litField w)))) := by
  unfold decodeWord
  cases htag : Op.ofTag (tagField w) with
  | none => exact .inl ⟨rfl, rfl⟩
  | some op =>
    refine .inr ⟨op, (Op.tag_of_ofTag htag).symm, ?_⟩
    by_cases hres : w &&& op.format.reservedMask = 0
    · exact .inr ⟨hres, if_pos hres⟩
    · exact .inl ⟨hres, if_neg hres⟩

/-! ### Encoding, then decoding -/

/-- The word of every instruction carries its opcode's tag and nothing in its reserved bits. -/
theorem encode_clean (i : Instr) : tagField (encode i) = i.op.tag ∧ encode i &&& i.op.format.reservedMask = 0 := by
  cases i with
  | add rd rs rt => exact Laws.CleanWord.add rd rs rt
  | addi rt rs imm => exact Laws.CleanWord.addi rt rs imm
  | sub rd rs rt => exact Laws.CleanWord.sub rd rs rt
  | slt rd rs rt => exact Laws.CleanWord.slt rd rs rt
  | bne rs rt offset => exact Laws.CleanWord.bne rs rt offset
  | j target => exact Laws.CleanWord.j target
  | jal target => exact Laws.CleanWord.jal target
  | lw rt offset rs => exact Laws.CleanWord.lw rt offset rs
  | sw rt offset rs => exact Laws.CleanWord.sw rt offset rs
  | cache code => exact Laws.CleanWord.cache code
  | halt => exact Laws.CleanWord.halt

/-- The fields of a well-formed instruction's word are its operands: a register fits three bits and a literal 16. -/
theorem instrOfFields_encode {i : Instr} (h : i.wellFormed = true) :
    i.op.instrOfFields (fieldA (encode i)) (fieldB (encode i)) (fieldC (encode i)) (litField (encode i)) = i := by
  cases i with
  | add | sub | slt => simp [encode, Instr.op, Op.instrOfFields]
  | addi rt rs n | bne rs rt n | lw rt n rs | sw rt n rs | j n | jal n | cache n =>
    simp [encode, Instr.op, Op.instrOfFields, toInt_litBits h]
  | halt => rfl

/-- Settles O46. -/
theorem decodeInvertsEncode : Obligations.DecodeInvertsEncode := fun i h =>
  ((decodeWord_eq_ok_iff (encode i) i.op).2 (encode_clean i)).trans (congrArg Except.ok (instrOfFields_encode h))

/-! ### Decoding, then encoding -/

theorem regBits_toFin (x : BitVec 3) : regBits x.toFin = x := BitVec.eq_of_toFin_eq (toFin_regBits x.toFin)

theorem litBits_toInt (x : BitVec 16) : litBits x.toInt = x := BitVec.ofInt_toInt

/-- A mask leaves nothing of a word exactly when it leaves nothing of each field. -/
theorem sixFields_and_eq_zero_iff (t t' : BitVec 4) (a a' b b' c c' r r' : BitVec 3) (l l' : BitVec 16) :
    sixFields t a b c r l &&& sixFields t' a' b' c' r' l' = 0 ↔
      t &&& t' = 0 ∧ a &&& a' = 0 ∧ b &&& b' = 0 ∧ c &&& c' = 0 ∧ r &&& r' = 0 ∧ l &&& l' = 0 := by
  rw [sixFields_and, show (0 : PackedWord) = sixFields 0 0 0 0 0 0 by decide, sixFields_inj]

/-- A word whose reserved bits are zero is the packed word of the instruction its fields name: what the instruction does
not hold is reserved. -/
theorem encode_instrOfFields {op : Op} {a b c r : BitVec 3} {l : BitVec 16}
    (h : sixFields op.tag a b c r l &&& op.format.reservedMask = 0) :
    encode (op.instrOfFields a.toFin b.toFin c.toFin l.toInt) = sixFields op.tag a b c r l := by
  cases op with
  | add | sub | slt =>
    have hmask : Format.r.reservedMask = sixFields 0 0 0 0 (BitVec.allOnes 3) (BitVec.allOnes 16) := by decide
    rw [Op.format, hmask, sixFields_and_eq_zero_iff, BitVec.and_allOnes, BitVec.and_allOnes] at h
    obtain ⟨-, -, -, -, rfl, rfl⟩ := h
    simp [Op.instrOfFields, encode, packFields_eq_sixFields, regBits_toFin]
  | addi | bne | lw | sw =>
    have hmask : (0x003F0000 : PackedWord) = sixFields 0 0 0 (BitVec.allOnes 3) (BitVec.allOnes 3) 0 := by decide
    rw [Op.format, Format.reservedMask, hmask, sixFields_and_eq_zero_iff, BitVec.and_allOnes, BitVec.and_allOnes] at h
    obtain ⟨-, -, -, rfl, rfl, -⟩ := h
    simp [Op.instrOfFields, encode, packFields_eq_sixFields, regBits_toFin, litBits_toInt]
  | j | jal | cache =>
    have hmask : (0x0FFF0000 : PackedWord) =
      sixFields 0 (BitVec.allOnes 3) (BitVec.allOnes 3) (BitVec.allOnes 3) (BitVec.allOnes 3) 0 := by decide
    rw [Op.format, Format.reservedMask, hmask, sixFields_and_eq_zero_iff] at h
    simp only [BitVec.and_allOnes] at h
    obtain ⟨-, rfl, rfl, rfl, rfl, -⟩ := h
    simp [Op.instrOfFields, encode, packFields_eq_sixFields, litBits_toInt]
  | halt =>
    have hmask : Format.n.reservedMask = sixFields 0 (BitVec.allOnes 3) (BitVec.allOnes 3) (BitVec.allOnes 3)
      (BitVec.allOnes 3) (BitVec.allOnes 16) := by decide
    rw [Op.format, hmask, sixFields_and_eq_zero_iff] at h
    simp only [BitVec.and_allOnes] at h
    obtain ⟨-, rfl, rfl, rfl, rfl, rfl⟩ := h
    rfl

/-- Settles O47: a word that decodes is made of its opcode's tag and its fields. -/
theorem encodeInvertsDecode : Obligations.EncodeInvertsDecode := by
  intro w i h
  refine ⟨?_, wellFormed_of_decodeRecord (r := .packed w) h⟩
  rcases decodeWord_cases w with ⟨-, hw⟩ | ⟨op, htag, ⟨-, hw⟩ | ⟨hres, hw⟩⟩
  · cases hw.symm.trans h
  · cases hw.symm.trans h
  · cases hw.symm.trans h
    have hword := word_eq_sixFields w
    rw [htag] at hword
    rw [hword] at hres
    exact (encode_instrOfFields hres).trans hword.symm

/-! ### Words that are rejected -/

theorem ofTag_eq_none_iff (t : BitVec 4) : Op.ofTag t = none ↔ 11 ≤ t.toNat := by
  revert t
  decide

theorem toNat_tag_lt (op : Op) : op.tag.toNat < 11 := by cases op <;> decide

theorem Op.tag_injective {op op' : Op} (h : op.tag = op'.tag) : op = op' :=
  Option.some.inj (by rw [← Op.ofTag_tag op, h, Op.ofTag_tag])

/-- A word shows the pattern of some row of the opcode map exactly when it decodes to that row's opcode. -/
theorem exists_row_iff (w : PackedWord) :
    (∃ row ∈ opcodeTable, w &&& row.mask = row.pattern) ↔
      ∃ op : Op, tagField w = op.tag ∧ w &&& op.format.reservedMask = 0 := by
  have hrow : ∀ op : Op, ∃ row ∈ opcodeTable, row.op = op := fun op => by cases op <;> decide
  constructor
  · rintro ⟨row, hmem, hw⟩
    exact ⟨row.op, (decodeWord_eq_ok_iff w row.op).1 ((wordsDecodeTo_of_mem_opcodeTable hmem w).1 hw)⟩
  · rintro ⟨op, hw⟩
    obtain ⟨row, hmem, rfl⟩ := hrow op
    exact ⟨row, hmem, (wordsDecodeTo_of_mem_opcodeTable hmem w).2 ((decodeWord_eq_ok_iff w row.op).2 hw)⟩

/-- Settles O48, one alternative of the decoder at a time; a tag names one opcode, so no row but its own can match. -/
theorem wordFaultsByTagThenReservedBits : Obligations.WordFaultsByTagThenReservedBits := by
  intro w
  have hrows : (∀ row ∈ opcodeTable, w &&& row.mask ≠ row.pattern) ↔
      ¬ ∃ op : Op, tagField w = op.tag ∧ w &&& op.format.reservedMask = 0 := by
    simp only [← exists_row_iff, not_exists, not_and, ne_eq]
  rw [hrows, ← toNat_tagField]
  rcases decodeWord_cases w with ⟨htag, hw⟩ | ⟨op, htag, hw⟩
  · have hunknown := (ofTag_eq_none_iff _).1 htag
    rw [hw]
    exact ⟨iff_of_true rfl hunknown, iff_of_false nofun fun ⟨hlt, _⟩ => not_le.2 hlt hunknown⟩
  · have hlt := toNat_tag_lt op
    rw [htag]
    rcases hw with ⟨hres, hw⟩ | ⟨hres, hw⟩
    · rw [hw]
      refine ⟨iff_of_false nofun (not_le.2 hlt), iff_of_true rfl ⟨hlt, ?_⟩⟩
      rintro ⟨op', hop, hclean⟩
      exact hres (Op.tag_injective hop ▸ hclean)
    · rw [hw]
      exact ⟨iff_of_false nofun (not_le.2 hlt), iff_of_false nofun fun ⟨_, hno⟩ => hno ⟨op, rfl, hres⟩⟩

end Sys2Proof
end

section
/-! Assembler lines (30_encoding.md R85 to R97): the operand list of each format, the round trip through `spell`, and
the tokens of any length. -/

namespace Sys2Proof

open Machine

/-! ### The operand list of each format -/

theorem parseOperands_three_regs {op : Op} (hop : op.format = .r) (a b c : List Char) :
    parseOperands op [a, b, c] =
      (parseReg a).bind fun rd => (parseReg b).bind fun rs => (parseReg c).map fun rt =>
        op.instrOfFields rd rs rt 0 := by
  cases ha : parseReg a <;> cases hb : parseReg b <;> cases hc : parseReg c <;>
    simp [parseOperands, hop, ha, hb, hc]

theorem parseOperands_two_regs_lit {op : Op} (hop : op.format = .i ∨ op.format = .b) (a b c : List Char) :
    parseOperands op [a, b, c] =
      (parseReg a).bind fun ra => (parseReg b).bind fun rb => (parseLit c).map fun n =>
        op.instrOfFields ra rb 0 n := by
  rcases hop with hop | hop <;> cases ha : parseReg a <;> cases hb : parseReg b <;> cases hc : parseLit c <;>
    simp [parseOperands, hop, ha, hb, hc]

theorem parseOperands_reg_mem {op : Op} (hop : op.format = .m) (a b : List Char) :
    parseOperands op [a, b] =
      (parseReg a).bind fun rt => (parseMem b).map fun p => op.instrOfFields rt p.2 0 p.1 := by
  cases ha : parseReg a <;> cases hb : parseMem b <;> simp [parseOperands, hop, ha, hb]

theorem parseOperands_lit {op : Op} (hop : op.format = .j ∨ op.format = .c) (a : List Char) :
    parseOperands op [a] = (parseLit a).map fun n => op.instrOfFields 0 0 0 n := by
  rcases hop with hop | hop <;> cases ha : parseLit a <;> simp [parseOperands, hop, ha]

/-- A memory operand is its offset and its base. -/
theorem parseMem_offset_base {offset base : List Char} (h : ∀ c ∈ offset, c ≠ '(') :
    parseMem (offset ++ '(' :: (base ++ [')'])) =
      (parseLit offset).bind fun n => (parseReg base).map fun rs => (n, rs) := by
  rw [parseMem_append h]
  cases parseLit offset <;> cases parseReg base <;> rfl

theorem isToken_offset_base {offset base : List Char} (ho : IsToken offset) (hb : IsToken base) :
    IsToken (offset ++ '(' :: (base ++ [')'])) :=
  isToken_append ho (isToken_cons (by decide) (isToken_append hb ⟨by decide, by decide⟩))

/-- A line of a mnemonic and tokens, with nothing around it, is judged by its operand list. -/
theorem decodeText_bare_line {ts : List (List Char)} (op : Op) (hts : ∀ t ∈ ts, IsToken t) :
    decodeText (spellLine op ts) = (parseOperands op ts).elim (.error .malformedInstruction) .ok := by
  simpa using decodeText_spellLine (before := []) (after := []) op rfl rfl hts

/-! ### The line of an instruction -/

/-- The operand tokens that `spell` writes, in assembler order. -/
def operandTokens : Instr → List (List Char)
  | .add rd rs rt => [spellReg rd, spellReg rs, spellReg rt]
  | .addi rt rs imm => [spellReg rt, spellReg rs, spellInt imm]
  | .sub rd rs rt => [spellReg rd, spellReg rs, spellReg rt]
  | .slt rd rs rt => [spellReg rd, spellReg rs, spellReg rt]
  | .bne rs rt offset => [spellReg rs, spellReg rt, spellInt offset]
  | .j target => [spellInt target]
  | .jal target => [spellInt target]
  | .lw rt offset rs => [spellReg rt, spellMem offset rs]
  | .sw rt offset rs => [spellReg rt, spellMem offset rs]
  | .cache code => [spellInt code]
  | .halt => []

theorem spell_eq_spellLine (i : Instr) : spell i = spellLine i.op (operandTokens i) := by
  cases i <;> rfl

theorem litOk_iff (n : Int) : litOk n = true ↔ -32768 ≤ n ∧ n ≤ 32767 := decide_eq_true_iff

theorem isToken_operandTokens {i : Instr} (h : i.wellFormed = true) : ∀ t ∈ operandTokens i, IsToken t := by
  cases i with
  | add | sub | slt => simp [operandTokens, isToken_spellReg]
  | addi _ _ n | bne _ _ n | j n | jal n | cache n =>
    simp [operandTokens, isToken_spellReg, isToken_spellInt ((litOk_iff n).1 h)]
  | lw _ n _ | sw _ n _ => simp [operandTokens, isToken_spellReg, isToken_spellMem ((litOk_iff n).1 h)]
  | halt => exact nofun

theorem parseOperands_operandTokens {i : Instr} (h : i.wellFormed = true) :
    parseOperands i.op (operandTokens i) = some i := by
  cases i with
  | add | sub | slt =>
    rw [operandTokens, parseOperands_three_regs rfl, parseReg_spellReg, parseReg_spellReg, parseReg_spellReg]
    rfl
  | addi _ _ n =>
    rw [operandTokens, parseOperands_two_regs_lit (.inl rfl), parseReg_spellReg, parseReg_spellReg,
      parseLit_spellInt ((litOk_iff n).1 h)]
    rfl
  | bne _ _ n =>
    rw [operandTokens, parseOperands_two_regs_lit (.inr rfl), parseReg_spellReg, parseReg_spellReg,
      parseLit_spellInt ((litOk_iff n).1 h)]
    rfl
  | j n | jal n =>
    rw [operandTokens, parseOperands_lit (.inl rfl), parseLit_spellInt ((litOk_iff n).1 h)]
    rfl
  | cache n =>
    rw [operandTokens, parseOperands_lit (.inr rfl), parseLit_spellInt ((litOk_iff n).1 h)]
    rfl
  | lw _ n _ | sw _ n _ =>
    rw [operandTokens, parseOperands_reg_mem rfl, parseReg_spellReg, parseMem_spellMem ((litOk_iff n).1 h)]
    rfl
  | halt => rfl

/-- Settles O49: the line is a mnemonic and tokens, and the tokens parse back to the instruction. -/
theorem textDecodeInvertsSpelling : Obligations.TextDecodeInvertsSpelling := by
  intro i h before after hbefore hafter
  rw [spell_eq_spellLine, decodeText_spellLine i.op hbefore hafter (isToken_operandTokens h),
    parseOperands_operandTokens h]
  rfl

theorem wellFormed_of_decodeText {line : List Char} {i : Instr} (h : decodeText line = .ok i) :
    i.wellFormed = true :=
  wellFormed_of_decodeRecord (r := .text (String.ofList line)) (by rw [decodeRecord, String.toList_ofList, h])

/-- Settles O50: either form decodes to well-formed instructions alone, and each of those has a word and a line. -/
theorem textAndWordNameTheSameInstructions : Obligations.TextAndWordNameTheSameInstructions := by
  intro i
  constructor
  · rintro ⟨line, h⟩
    exact ⟨encode i, decodeInvertsEncode i (wellFormed_of_decodeText h)⟩
  · rintro ⟨w, h⟩
    have hwf : i.wellFormed = true := wellFormed_of_decodeRecord (r := .packed w) h
    exact ⟨[] ++ spell i ++ [], textDecodeInvertsSpelling i hwf [] [] rfl rfl⟩

/-! ### Register tokens -/

theorem isToken_reg {ds : List Char} (h : DigitRun ds) : IsToken ('R' :: ds) :=
  isToken_cons (by decide) (isToken_of_digitRun h)

theorem parseReg_of_value_lt {ds : List Char} (h : DigitRun ds) (hv : digitsValue ds < 8) :
    parseReg ('R' :: ds) = some ⟨digitsValue ds, hv⟩ := by
  rw [parseReg_of_digitRun h, dif_pos hv]

theorem parseReg_of_le_value {ds : List Char} (h : DigitRun ds) (hv : 8 ≤ digitsValue ds) :
    parseReg ('R' :: ds) = none := by
  rw [parseReg_of_digitRun h, dif_neg (not_lt.2 hv)]

/-- Three register tokens of any digits. -/
theorem decodeText_three_reg_tokens {op : Op} (hop : op.format = .r) {da db dc : List Char} (hda : DigitRun da)
    (hdb : DigitRun db) (hdc : DigitRun dc) :
    (∀ ha hb hc, decodeText (spellLine op ['R' :: da, 'R' :: db, 'R' :: dc]) =
      .ok (op.instrOfFields ⟨digitsValue da, ha⟩ ⟨digitsValue db, hb⟩ ⟨digitsValue dc, hc⟩ 0)) ∧
    (8 ≤ digitsValue da ∨ 8 ≤ digitsValue db ∨ 8 ≤ digitsValue dc →
      decodeText (spellLine op ['R' :: da, 'R' :: db, 'R' :: dc]) = .error .malformedInstruction) := by
  rw [decodeText_bare_line op (by simp [isToken_reg, hda, hdb, hdc]), parseOperands_three_regs hop]
  constructor
  · intro ha hb hc
    rw [parseReg_of_value_lt hda ha, parseReg_of_value_lt hdb hb, parseReg_of_value_lt hdc hc]
    rfl
  · rintro (h | h | h)
    · simp [parseReg_of_le_value hda h]
    · simp [parseReg_of_le_value hdb h]
    · simp [parseReg_of_le_value hdc h]

/-- Two register tokens of any digits before a literal. -/
theorem decodeText_two_reg_tokens_lit {op : Op} (hop : op.format = .i ∨ op.format = .b) {da db : List Char} {n : Int}
    (hda : DigitRun da) (hdb : DigitRun db) (hn : -32768 ≤ n ∧ n ≤ 32767) :
    (∀ ha hb, decodeText (spellLine op ['R' :: da, 'R' :: db, spellInt n]) =
      .ok (op.instrOfFields ⟨digitsValue da, ha⟩ ⟨digitsValue db, hb⟩ 0 n)) ∧
    (8 ≤ digitsValue da ∨ 8 ≤ digitsValue db →
      decodeText (spellLine op ['R' :: da, 'R' :: db, spellInt n]) = .error .malformedInstruction) := by
  rw [decodeText_bare_line op (by simp [isToken_reg, isToken_spellInt, hda, hdb, hn]),
    parseOperands_two_regs_lit hop]
  constructor
  · intro ha hb
    rw [parseReg_of_value_lt hda ha, parseReg_of_value_lt hdb hb, parseLit_spellInt hn]
    rfl
  · rintro (h | h)
    · simp [parseReg_of_le_value hda h]
    · simp [parseReg_of_le_value hdb h]

/-- A data register and a base of any digits. -/
theorem decodeText_reg_token_mem {op : Op} (hop : op.format = .m) {da db : List Char} {n : Int}
    (hda : DigitRun da) (hdb : DigitRun db) (hn : -32768 ≤ n ∧ n ≤ 32767) :
    (∀ ha hb, decodeText (spellLine op ['R' :: da, spellInt n ++ '(' :: 'R' :: (db ++ [')'])]) =
      .ok (op.instrOfFields ⟨digitsValue da, ha⟩ ⟨digitsValue db, hb⟩ 0 n)) ∧
    (8 ≤ digitsValue da ∨ 8 ≤ digitsValue db →
      decodeText (spellLine op ['R' :: da, spellInt n ++ '(' :: 'R' :: (db ++ [')'])]) =
        .error .malformedInstruction) := by
  have hmem := parseMem_offset_base (base := 'R' :: db) fun _ => ne_openBracket_of_mem_spellInt hn
  have htoken := isToken_offset_base (isToken_spellInt hn) (isToken_reg hdb)
  rw [List.cons_append] at hmem htoken
  rw [decodeText_bare_line op (by simp only [List.forall_mem_cons]; exact ⟨isToken_reg hda, htoken, nofun⟩),
    parseOperands_reg_mem hop, hmem, parseLit_spellInt hn]
  constructor
  · intro ha hb
    rw [parseReg_of_value_lt hda ha, parseReg_of_value_lt hdb hb]
    rfl
  · rintro (h | h)
    · simp [parseReg_of_le_value hda h]
    · simp [parseReg_of_le_value hdb h]

/-- Settles O51, one line for each format with registers. -/
theorem registerTokenNamesItsDecimalValue : Obligations.RegisterTokenNamesItsDecimalValue := by
  intro da db dc n hda hdb hdc hn
  simp only [List.forall_mem_cons, List.not_mem_nil, false_imp_iff, implies_true, and_true]
  exact ⟨⟨decodeText_three_reg_tokens (op := .add) rfl hda hdb hdc,
      decodeText_three_reg_tokens (op := .sub) rfl hda hdb hdc,
      decodeText_three_reg_tokens (op := .slt) rfl hda hdb hdc⟩,
    ⟨decodeText_two_reg_tokens_lit (op := .addi) (.inl rfl) hda hdb hn,
      decodeText_two_reg_tokens_lit (op := .bne) (.inr rfl) hda hdb hn⟩,
    decodeText_reg_token_mem (op := .lw) rfl hda hdb hn, decodeText_reg_token_mem (op := .sw) rfl hda hdb hn⟩

/-! ### Literal tokens -/

/-- A token that a literal position can hold, and the integer it denotes, in range or not. -/
structure LiteralToken (s : List Char) (n : Int) : Prop where
  isToken : IsToken s
  parseSigned : parseSigned s = some n
  ne_openBracket : ∀ c ∈ s, c ≠ '('

theorem ne_openBracket_of_digitRun {ds : List Char} (h : DigitRun ds) : ∀ c ∈ ds, c ≠ '(' := by
  rintro c hc rfl
  exact absurd (List.all_eq_true.1 h.2 _ hc) (by decide)

/-- The three forms of a literal: without a sign, with `+` and with `-`. -/
theorem literalToken_of_mem {ds : List Char} (h : DigitRun ds) {tok : List Char × Int}
    (htok : tok ∈ [(ds, (digitsValue ds : Int)), ('+' :: ds, (digitsValue ds : Int)),
      ('-' :: ds, -(digitsValue ds : Int))]) : LiteralToken tok.1 tok.2 := by
  have hdigits := isToken_of_digitRun h
  have hbracket := ne_openBracket_of_digitRun h
  simp only [List.mem_cons, List.not_mem_nil, or_false] at htok
  rcases htok with rfl | rfl | rfl
  · exact ⟨hdigits, parseSigned_of_digitRun h, hbracket⟩
  · exact ⟨isToken_cons (by decide) hdigits, parseSigned_plus h, List.forall_mem_cons.2 ⟨by decide, hbracket⟩⟩
  · exact ⟨isToken_cons (by decide) hdigits, parseSigned_minus h, List.forall_mem_cons.2 ⟨by decide, hbracket⟩⟩

/-- A literal's range decides the line, once everything else in it parses. -/
theorem LiteralToken.elim_parseLit {s : List Char} {n : Int} (h : LiteralToken s n) (f : Int → Instr) :
    ((parseLit s).map f).elim (.error .malformedInstruction) .ok = inLiteralRange n (f n) := by
  rw [parseLit_of_parseSigned h.parseSigned, inLiteralRange]
  split <;> rfl

theorem LiteralToken.decodeText_lit {s : List Char} {n : Int} (h : LiteralToken s n) {op : Op}
    (hop : op.format = .j ∨ op.format = .c) :
    decodeText (spellLine op [s]) = inLiteralRange n (op.instrOfFields 0 0 0 n) := by
  rw [decodeText_bare_line op (by simp [h.isToken]), parseOperands_lit hop]
  exact h.elim_parseLit _

theorem LiteralToken.decodeText_two_regs_lit {s : List Char} {n : Int} (h : LiteralToken s n) {op : Op}
    (hop : op.format = .i ∨ op.format = .b) (a b : Reg) :
    decodeText (spellLine op [spellReg a, spellReg b, s]) = inLiteralRange n (op.instrOfFields a b 0 n) := by
  rw [decodeText_bare_line op (by simp [isToken_spellReg, h.isToken]), parseOperands_two_regs_lit hop,
    parseReg_spellReg, parseReg_spellReg]
  exact h.elim_parseLit _

theorem LiteralToken.decodeText_reg_mem {s : List Char} {n : Int} (h : LiteralToken s n) {op : Op}
    (hop : op.format = .m) (a b : Reg) :
    decodeText (spellLine op [spellReg a, s ++ '(' :: (spellReg b ++ [')'])]) =
      inLiteralRange n (op.instrOfFields a b 0 n) := by
  have htoken := isToken_offset_base h.isToken (isToken_spellReg b)
  rw [decodeText_bare_line op (List.forall_mem_cons.2 ⟨isToken_spellReg a, List.forall_mem_singleton.2 htoken⟩),
    parseOperands_reg_mem hop, parseMem_offset_base h.ne_openBracket, parseReg_spellReg, parseReg_spellReg,
    ← h.elim_parseLit fun n => op.instrOfFields a b 0 n]
  cases parseLit s <;> rfl

/-- Settles O52, one line for each format with a literal. -/
theorem literalTokenNamesItsSignedValue : Obligations.LiteralTokenNamesItsSignedValue := by
  intro ds hds a b tok htok
  have h := literalToken_of_mem hds htok
  simp only [List.forall_mem_cons, List.not_mem_nil, false_imp_iff, implies_true, and_true]
  exact ⟨⟨h.decodeText_lit (op := .j) (.inl rfl), h.decodeText_lit (op := .jal) (.inl rfl),
      h.decodeText_lit (op := .cache) (.inr rfl)⟩,
    ⟨h.decodeText_two_regs_lit (op := .addi) (.inl rfl) a b, h.decodeText_two_regs_lit (op := .bne) (.inr rfl) a b⟩,
    h.decodeText_reg_mem (op := .lw) rfl a b, h.decodeText_reg_mem (op := .sw) rfl a b⟩

/-! ### Lines that are rejected -/

theorem decodeText_of_blank {s : List Char} (h : s.all isWs = true) : decodeText s = .error .malformedInstruction :=
  if_pos h

/-- Settles O53: the blank line is fetched as any record is, and its decode error is taken. -/
theorem blankRecordIsMalformedWhenFetched : Obligations.BlankRecordIsMalformedWhenFetched := by
  intro s line hx h0 hl hrecord hblank
  have herror : decodeRecord (s.recordAt s.pc) = .error .malformedInstruction := by
    rw [hrecord, decodeRecord, decodeText_of_blank hblank]
  exact step_of_decode_error hx h0 hl herror

/-- The mnemonic of a line that starts with one: the maximal run from its first character. -/
theorem mnemonic_of_line {m rest : List Char} (hm : IsToken m)
    (hrest : ∀ c, rest.head? = some c → inMnemonic c = false) :
    ((m ++ rest).dropWhile fun c => !inMnemonic c) = m ++ rest ∧ (m ++ rest).takeWhile inMnemonic = m := by
  constructor
  · obtain ⟨c, u, rfl, hc⟩ := hm.exists_cons
    simp [hc]
  · rw [List.takeWhile_append_of_pos fun _ => hm.inMnemonic_of_mem]
    cases rest with
    | nil => exact List.append_nil m
    | cons c rest => rw [List.takeWhile_cons_of_neg (by simp [hrest c rfl]), List.append_nil]

/-- Settles O54: the mnemonic is judged before anything that follows it. -/
theorem unknownMnemonicIsJudgedFirst : Obligations.UnknownMnemonicIsJudgedFirst := by
  intro m rest hne hall hunknown hrest
  have hm : IsToken m := ⟨hne, hall⟩
  obtain ⟨hstart, hmnemonic⟩ := mnemonic_of_line hm hrest
  have hblank : (m ++ rest).all isWs = false := all_isWs_append_token [] rest hm
  have hnone : Op.ofMnemonic m = none := List.find?_eq_none.2 fun op hop => by simpa using hunknown op hop
  rw [decodeText, hblank, if_neg Bool.false_ne_true]
  simp only [hstart, hmnemonic, hnone]

end Sys2Proof
end
